-- ==== Sys2Proof/Word.lean ====
section
/-! DEFINITION. The widths of the core's data (00_scope R6, R11): every datum is an 8-bit or 16-bit unsigned value. -/

namespace Sys2Proof

/-- One byte: a memory cell, a general register, a timer, an immediate (R6). -/
abbrev Byte := BitVec 8

/-- Sixteen bits: an instruction word, the program counter, I, a return-address slot (R6, R26). -/
abbrev Word := BitVec 16

/-- The 12-bit address field nnn (R10). -/
abbrev Addr12 := BitVec 12

/-- The index of one of the sixteen general registers V[0] to V[15] (R22), and likewise of one of the sixteen keys (R14). -/
abbrev RegIdx := Fin 16

end Sys2Proof
end

