-- ==== Sys2Proof/Syntax.lean ====
section
/-! DEFINITION. The 35 instructions of 30_encoding R75, one constructor per row of spec/opcode_table.json, named as the
rule's column "variant" names them. An operand has the width its field has in the word (00_scope R10, R74). -/

namespace Sys2Proof

/-- The instruction set (R3, R75). -/
inductive Instr where
  /-- 1nnn, JP nnn (R100). -/
  | jump (nnn : Addr12)
  /-- Bnnn, JP V0, nnn (R101). -/
  | jumpOffset (nnn : Addr12)
  /-- 2nnn, CALL nnn (R102). -/
  | call (nnn : Addr12)
  /-- 00EE, RET (R103). -/
  | ret
  /-- 3xkk, SE Vx, kk (R104). -/
  | skipEqImm (x : RegIdx) (kk : Byte)
  /-- 4xkk, SNE Vx, kk (R105). -/
  | skipNeImm (x : RegIdx) (kk : Byte)
  /-- 5xy0, SE Vx, Vy (R106). -/
  | skipEqReg (x y : RegIdx)
  /-- 9xy0, SNE Vx, Vy (R107). -/
  | skipNeReg (x y : RegIdx)
  /-- Ex9E, SKP Vx (R110). -/
  | skipKey (x : RegIdx)
  /-- ExA1, SKNP Vx (R111). -/
  | skipNotKey (x : RegIdx)
  /-- 0nnn, SYS nnn, nnn neither 0E0 nor 0EE (R112, R76). -/
  | sysCall (nnn : Addr12)
  /-- 6xkk, LD Vx, kk (R130). -/
  | loadImm (x : RegIdx) (kk : Byte)
  /-- 7xkk, ADD Vx, kk (R131). -/
  | addImm (x : RegIdx) (kk : Byte)
  /-- 8xy0, LD Vx, Vy (R140). -/
  | copy (x y : RegIdx)
  /-- 8xy1, OR Vx, Vy (R141). -/
  | or (x y : RegIdx)
  /-- 8xy2, AND Vx, Vy (R142). -/
  | and (x y : RegIdx)
  /-- 8xy3, XOR Vx, Vy (R143). -/
  | xor (x y : RegIdx)
  /-- 8xy4, ADD Vx, Vy (R145). -/
  | add (x y : RegIdx)
  /-- 8xy5, SUB Vx, Vy (R146). -/
  | sub (x y : RegIdx)
  /-- 8xy7, SUBN Vx, Vy (R147). -/
  | subReverse (x y : RegIdx)
  /-- 8xy6, SHR Vx, Vy (R148). -/
  | shiftRight (x y : RegIdx)
  /-- 8xyE, SHL Vx, Vy (R149). -/
  | shiftLeft (x y : RegIdx)
  /-- Annn, LD I, nnn (R160). -/
  | setIndex (nnn : Addr12)
  /-- Fx1E, ADD I, Vx (R161). -/
  | addIndex (x : RegIdx)
  /-- Fx29, LD F, Vx (R162). -/
  | glyphAddr (x : RegIdx)
  /-- Cxkk, RND Vx, kk (R166). -/
  | random (x : RegIdx) (kk : Byte)
  /-- Fx07, LD Vx, DT (R170). -/
  | getDelay (x : RegIdx)
  /-- Fx15, LD DT, Vx (R171). -/
  | setDelay (x : RegIdx)
  /-- Fx18, LD ST, Vx (R172). -/
  | setSound (x : RegIdx)
  /-- Fx33, LD B, Vx (R180). -/
  | bcd (x : RegIdx)
  /-- Fx55, LD [I], Vx (R181). -/
  | storeRegs (x : RegIdx)
  /-- Fx65, LD Vx, [I] (R182). -/
  | loadRegs (x : RegIdx)
  /-- Fx0A, LD Vx, K (R190). -/
  | waitKey (x : RegIdx)
  /-- Dxyn, DRW Vx, Vy, n (R201). -/
  | draw (x y : RegIdx) (n : BitVec 4)
  /-- 00E0, CLS (R200). -/
  | clear
  deriving DecidableEq, Repr

end Sys2Proof
end

