-- ==== Sys2Proof/WellFormed.lean ====
section
/-! DEFINITION. Which terms of Instr stand for an instruction. Every field is in range by its type (00_scope R10), so one
check remains: a system call whose word would be 00E0 or 00EE is none (30_encoding R76, 40_control_flow R112). -/

namespace Sys2Proof

/-- "0nnn with nnn ∉ {0x0E0, 0x0EE}" (R112); every other term is well formed. -/
def Instr.wf : Instr → Bool
  | .sysCall nnn => decide (nnn ≠ 0x0E0#12) && decide (nnn ≠ 0x0EE#12)
  | .jump _ | .jumpOffset _ | .call _ | .ret => true
  | .skipEqImm _ _ | .skipNeImm _ _ | .skipEqReg _ _ | .skipNeReg _ _ | .skipKey _ | .skipNotKey _ => true
  | .loadImm _ _ | .addImm _ _ => true
  | .copy _ _ | .or _ _ | .and _ _ | .xor _ _ => true
  | .add _ _ | .sub _ _ | .subReverse _ _ | .shiftRight _ _ | .shiftLeft _ _ => true
  | .setIndex _ | .addIndex _ | .glyphAddr _ | .random _ _ => true
  | .getDelay _ | .setDelay _ | .setSound _ => true
  | .bcd _ | .storeRegs _ | .loadRegs _ | .waitKey _ => true
  | .draw _ _ _ | .clear => true

end Sys2Proof
end

