-- ==== Sys2Proof/Decode.lean ====
section
/-! DEFINITION. The decoder of 30_encoding R72 and R77, a pure and total mapping from a 16-bit word, on bytes too; after it
the encoder, written from the patterns of R75, and the rows of R75 (mask and match). -/

namespace Sys2Proof

/-- The decoder's output (R72): one of the 35 variants, or "unrecognized" carrying the raw word. -/
inductive Decoded where
  | instr (i : Instr)
  | unrecognized (w : Word)
  deriving DecidableEq, Repr

/-- The output on a list of bytes: as `Decoded`, with the bytes after the word, or too few bytes to hold a word. -/
inductive DecodedBytes where
  | instr (i : Instr) (rest : List Byte)
  | unrecognized (w : Word) (rest : List Byte)
  | truncated (bytes : List Byte)
  deriving DecidableEq, Repr

/-! ## Fields (R10) -/

/-- c = w[15:12], the category nibble (R10). -/
def fieldC (w : Word) : BitVec 4 := w.extractLsb' 12 4

/-- x = w[11:8], the first register index (R10). -/
def fieldX (w : Word) : RegIdx := (w.extractLsb' 8 4).toFin

/-- y = w[7:4], the second register index (R10). -/
def fieldY (w : Word) : RegIdx := (w.extractLsb' 4 4).toFin

/-- d = n = w[3:0], the sub-operation nibble, or the height of Dxyn (R10). -/
def fieldD (w : Word) : BitVec 4 := w.extractLsb' 0 4

/-- nnn = w[11:0], the address field (R10). -/
def fieldNNN (w : Word) : Addr12 := w.extractLsb' 0 12

/-- kk = w[7:0], the immediate field (R10). -/
def fieldKK (w : Word) : Byte := w.extractLsb' 0 8

/-- Big-endian combination of two bytes into a word (20_memory R57, R71): the first byte is the more significant one. -/
def wordOfBytes (hi lo : Byte) : Word := hi ++ lo

/-! ## Decoding (R77) -/

/-- Category 8, by d (R77). -/
def decode8 (w : Word) : Decoded :=
  match fieldD w with
  | 0x0#4 => .instr (.copy (fieldX w) (fieldY w))
  | 0x1#4 => .instr (.or (fieldX w) (fieldY w))
  | 0x2#4 => .instr (.and (fieldX w) (fieldY w))
  | 0x3#4 => .instr (.xor (fieldX w) (fieldY w))
  | 0x4#4 => .instr (.add (fieldX w) (fieldY w))
  | 0x5#4 => .instr (.sub (fieldX w) (fieldY w))
  | 0x6#4 => .instr (.shiftRight (fieldX w) (fieldY w))
  | 0x7#4 => .instr (.subReverse (fieldX w) (fieldY w))
  | 0xE#4 => .instr (.shiftLeft (fieldX w) (fieldY w))
  | _ => .unrecognized w

/-- Category E, by kk (R77). -/
def decodeE (w : Word) : Decoded :=
  match fieldKK w with
  | 0x9E#8 => .instr (.skipKey (fieldX w))
  | 0xA1#8 => .instr (.skipNotKey (fieldX w))
  | _ => .unrecognized w

/-- Category F, by kk (R77). -/
def decodeF (w : Word) : Decoded :=
  match fieldKK w with
  | 0x07#8 => .instr (.getDelay (fieldX w))
  | 0x0A#8 => .instr (.waitKey (fieldX w))
  | 0x15#8 => .instr (.setDelay (fieldX w))
  | 0x18#8 => .instr (.setSound (fieldX w))
  | 0x1E#8 => .instr (.addIndex (fieldX w))
  | 0x29#8 => .instr (.glyphAddr (fieldX w))
  | 0x33#8 => .instr (.bcd (fieldX w))
  | 0x55#8 => .instr (.storeRegs (fieldX w))
  | 0x65#8 => .instr (.loadRegs (fieldX w))
  | _ => .unrecognized w

/-- Category 0: the two exact words first, then the system-call space (R76). -/
def decode0 (w : Word) : Decoded :=
  if w = 0x00E0#16 then .instr .clear
  else if w = 0x00EE#16 then .instr .ret
  else .instr (.sysCall (fieldNNN w))

/-- Decode(w) of R77: strict matching of every fixed digit. -/
def decode (w : Word) : Decoded :=
  match fieldC w with
  | 0x0#4 => decode0 w
  | 0x1#4 => .instr (.jump (fieldNNN w))
  | 0x2#4 => .instr (.call (fieldNNN w))
  | 0x3#4 => .instr (.skipEqImm (fieldX w) (fieldKK w))
  | 0x4#4 => .instr (.skipNeImm (fieldX w) (fieldKK w))
  | 0x5#4 => if fieldD w = 0x0#4 then .instr (.skipEqReg (fieldX w) (fieldY w)) else .unrecognized w
  | 0x6#4 => .instr (.loadImm (fieldX w) (fieldKK w))
  | 0x7#4 => .instr (.addImm (fieldX w) (fieldKK w))
  | 0x8#4 => decode8 w
  | 0x9#4 => if fieldD w = 0x0#4 then .instr (.skipNeReg (fieldX w) (fieldY w)) else .unrecognized w
  | 0xA#4 => .instr (.setIndex (fieldNNN w))
  | 0xB#4 => .instr (.jumpOffset (fieldNNN w))
  | 0xC#4 => .instr (.random (fieldX w) (fieldKK w))
  | 0xD#4 => .instr (.draw (fieldX w) (fieldY w) (fieldD w))
  | 0xE#4 => decodeE w
  | 0xF#4 => decodeF w
  | _ => .unrecognized w

/-- The decoder on bytes as they lie in memory, lowest address first (R57): the instruction and the bytes after it. -/
def decodeBytes : List Byte → DecodedBytes
  | hi :: lo :: rest =>
    match decode (wordOfBytes hi lo) with
    | .instr i => .instr i rest
    | .unrecognized w => .unrecognized w rest
  | short => .truncated short

/-- The instruction the decoder reads from the opcode table's word `w` of `nbits` bits (bits above `nbits` are 0), laid out in
memory order (R57). -/
def decodeTableWord (nbits w : Nat) : Option Instr :=
  let word := BitVec.ofNat 16 (w % 2 ^ nbits)
  match decodeBytes [word.extractLsb' 8 8, word.extractLsb' 0 8] with
  | .instr i _ => some i
  | .unrecognized _ _ => none
  | .truncated _ => none

/-! ## Encoding (R73, R75) -/

/-- Format ADDR: c nnn (R73). -/
def formatAddr (c : BitVec 4) (nnn : Addr12) : Word := c ++ nnn

/-- Formats XKK and X: c x kk (R73). -/
def formatXKK (c : BitVec 4) (x : RegIdx) (kk : Byte) : Word := c ++ (BitVec.ofFin (w := 4) x) ++ kk

/-- Formats XY and XYN: c x y d (R73). -/
def formatXYD (c : BitVec 4) (x y : RegIdx) (d : BitVec 4) : Word :=
  c ++ (BitVec.ofFin (w := 4) x) ++ (BitVec.ofFin (w := 4) y) ++ d

/-- The word of an instruction, pattern by pattern as R75 lists them. -/
def encode : Instr → Word
  | .jump nnn => formatAddr 0x1#4 nnn
  | .jumpOffset nnn => formatAddr 0xB#4 nnn
  | .call nnn => formatAddr 0x2#4 nnn
  | .ret => 0x00EE#16
  | .skipEqImm x kk => formatXKK 0x3#4 x kk
  | .skipNeImm x kk => formatXKK 0x4#4 x kk
  | .skipEqReg x y => formatXYD 0x5#4 x y 0x0#4
  | .skipNeReg x y => formatXYD 0x9#4 x y 0x0#4
  | .skipKey x => formatXKK 0xE#4 x 0x9E#8
  | .skipNotKey x => formatXKK 0xE#4 x 0xA1#8
  | .sysCall nnn => formatAddr 0x0#4 nnn
  | .loadImm x kk => formatXKK 0x6#4 x kk
  | .addImm x kk => formatXKK 0x7#4 x kk
  | .copy x y => formatXYD 0x8#4 x y 0x0#4
  | .or x y => formatXYD 0x8#4 x y 0x1#4
  | .and x y => formatXYD 0x8#4 x y 0x2#4
  | .xor x y => formatXYD 0x8#4 x y 0x3#4
  | .add x y => formatXYD 0x8#4 x y 0x4#4
  | .sub x y => formatXYD 0x8#4 x y 0x5#4
  | .subReverse x y => formatXYD 0x8#4 x y 0x7#4
  | .shiftRight x y => formatXYD 0x8#4 x y 0x6#4
  | .shiftLeft x y => formatXYD 0x8#4 x y 0xE#4
  | .setIndex nnn => formatAddr 0xA#4 nnn
  | .addIndex x => formatXKK 0xF#4 x 0x1E#8
  | .glyphAddr x => formatXKK 0xF#4 x 0x29#8
  | .random x kk => formatXKK 0xC#4 x kk
  | .getDelay x => formatXKK 0xF#4 x 0x07#8
  | .setDelay x => formatXKK 0xF#4 x 0x15#8
  | .setSound x => formatXKK 0xF#4 x 0x18#8
  | .bcd x => formatXKK 0xF#4 x 0x33#8
  | .storeRegs x => formatXKK 0xF#4 x 0x55#8
  | .loadRegs x => formatXKK 0xF#4 x 0x65#8
  | .waitKey x => formatXKK 0xF#4 x 0x0A#8
  | .draw x y n => formatXYD 0xD#4 x y n
  | .clear => 0x00E0#16

/-- The two bytes of an instruction in memory order (R57). -/
def encodeBytes (i : Instr) : List Byte := [(encode i).extractLsb' 8 8, (encode i).extractLsb' 0 8]

/-! ## The opcode map (R75) -/

/-- "An instruction matches when `(w & mask) == match`" (R75). -/
def rowMatches (row : Word × Word) (w : Word) : Bool := decide (w &&& row.1 = row.2)

/-- The (mask, match) pair of an instruction's row of R75. -/
def opcodeRow : Instr → Word × Word
  | .jump _ => (0xF000#16, 0x1000#16)
  | .jumpOffset _ => (0xF000#16, 0xB000#16)
  | .call _ => (0xF000#16, 0x2000#16)
  | .ret => (0xFFFF#16, 0x00EE#16)
  | .skipEqImm _ _ => (0xF000#16, 0x3000#16)
  | .skipNeImm _ _ => (0xF000#16, 0x4000#16)
  | .skipEqReg _ _ => (0xF00F#16, 0x5000#16)
  | .skipNeReg _ _ => (0xF00F#16, 0x9000#16)
  | .skipKey _ => (0xF0FF#16, 0xE09E#16)
  | .skipNotKey _ => (0xF0FF#16, 0xE0A1#16)
  | .sysCall _ => (0xF000#16, 0x0000#16)
  | .loadImm _ _ => (0xF000#16, 0x6000#16)
  | .addImm _ _ => (0xF000#16, 0x7000#16)
  | .copy _ _ => (0xF00F#16, 0x8000#16)
  | .or _ _ => (0xF00F#16, 0x8001#16)
  | .and _ _ => (0xF00F#16, 0x8002#16)
  | .xor _ _ => (0xF00F#16, 0x8003#16)
  | .add _ _ => (0xF00F#16, 0x8004#16)
  | .sub _ _ => (0xF00F#16, 0x8005#16)
  | .subReverse _ _ => (0xF00F#16, 0x8007#16)
  | .shiftRight _ _ => (0xF00F#16, 0x8006#16)
  | .shiftLeft _ _ => (0xF00F#16, 0x800E#16)
  | .setIndex _ => (0xF000#16, 0xA000#16)
  | .addIndex _ => (0xF0FF#16, 0xF01E#16)
  | .glyphAddr _ => (0xF0FF#16, 0xF029#16)
  | .random _ _ => (0xF000#16, 0xC000#16)
  | .getDelay _ => (0xF0FF#16, 0xF007#16)
  | .setDelay _ => (0xF0FF#16, 0xF015#16)
  | .setSound _ => (0xF0FF#16, 0xF018#16)
  | .bcd _ => (0xF0FF#16, 0xF033#16)
  | .storeRegs _ => (0xF0FF#16, 0xF055#16)
  | .loadRegs _ => (0xF0FF#16, 0xF065#16)
  | .waitKey _ => (0xF0FF#16, 0xF00A#16)
  | .draw _ _ _ => (0xF000#16, 0xD000#16)
  | .clear => (0xFFFF#16, 0x00E0#16)

end Sys2Proof
end

