-- ==== Sys2Proof/Config.lean ====
section
/-! DEFINITION. What is fixed for one machine: the sizes of 00_scope R6, the configuration with the named parameters of R7
and their defaults, and the one free value of the spec (the random byte of 43_index_random_timers R165). -/

namespace Sys2Proof.Config

/-- MEM_SIZE: bytes of memory (R6). -/
def memSize : Nat := 4096

/-- The glyphs of the digits 0 to 3, five bytes each (R55). -/
def glyphs0 : List Byte :=
  [0xF0, 0x90, 0x90, 0x90, 0xF0] ++ [0x20, 0x60, 0x20, 0x20, 0x70] ++
  [0xF0, 0x10, 0xF0, 0x80, 0xF0] ++ [0xF0, 0x10, 0xF0, 0x10, 0xF0]

/-- The glyphs of the digits 4 to 7 (R55). -/
def glyphs4 : List Byte :=
  [0x90, 0x90, 0xF0, 0x10, 0x10] ++ [0xF0, 0x80, 0xF0, 0x10, 0xF0] ++
  [0xF0, 0x80, 0xF0, 0x90, 0xF0] ++ [0xF0, 0x10, 0x20, 0x40, 0x40]

/-- The glyphs of the digits 8 to B (R55). -/
def glyphs8 : List Byte :=
  [0xF0, 0x90, 0xF0, 0x90, 0xF0] ++ [0xF0, 0x90, 0xF0, 0x10, 0xF0] ++
  [0xF0, 0x90, 0xF0, 0x90, 0x90] ++ [0xE0, 0x90, 0xE0, 0x90, 0xE0]

/-- The glyphs of the digits C to F (R55). -/
def glyphsC : List Byte :=
  [0xF0, 0x80, 0x80, 0x80, 0xF0] ++ [0xE0, 0x90, 0x90, 0x90, 0xE0] ++
  [0xF0, 0x80, 0xF0, 0x80, 0xF0] ++ [0xF0, 0x80, 0xF0, 0x80, 0x80]

/-- The standard hexadecimal font: 16 glyphs of five bytes (R55, D6). -/
def standardFont : Vector Byte 80 := ⟨(glyphs0 ++ glyphs4 ++ glyphs8 ++ glyphsC).toArray, rfl⟩

/-- Which register 8xy6 and 8xyE shift (the parameter SHIFT_SOURCE of R7). -/
inductive ShiftSource where
  | vx
  | vy
  deriving DecidableEq, Repr

/-- The width of pc (the last parameter of R7). The widths from 13 to 16 are those the other rules admit: every pc value a run
computes is at most 0x10FE and none wraps (10_state R29), and a 16-bit stack slot holds any pc (R26, R31). -/
inductive PcWidth where
  | bits13
  | bits14
  | bits15
  | bits16
  deriving DecidableEq, Repr

/-- The number of bits. -/
def PcWidth.bits : PcWidth → Nat
  | .bits13 => 13
  | .bits14 => 14
  | .bits15 => 15
  | .bits16 => 16

/-- RandomByte() (R165): the n-th draw. A FREE VALUE: the source of the draws lies outside the architectural state and no
law but its range holds of it (assumption log 8). -/
opaque randomByte : Nat → Byte

end Sys2Proof.Config

namespace Sys2Proof

/-- The configuration of one machine: the named parameters of R7, "whose default is the value given" (assumption log 13). -/
structure Config where
  /-- PROG_START: the program start offset and the initial pc (D7). -/
  progStart : Addr12 := 0x200#12
  /-- FONT_BASE: the glyph table's base address (D5). -/
  fontBase : Addr12 := 0x000#12
  /-- GLYPH_DATA: the glyph bytes (D6). -/
  glyphData : Vector Byte 80 := Config.standardFont
  /-- SHIFT_SOURCE: the operand of 8xy6 and 8xyE (D1). -/
  shiftSource : Config.ShiftSource := .vy
  /-- The width of pc (D4). -/
  pcWidth : Config.PcWidth := .bits16
  deriving DecidableEq, Repr

namespace Config

/-- Every parameter at its default (R7). -/
def default : Config := {}

/-- "The glyph region must lie wholly below PROG_START: FONT_BASE + 80 ≤ PROG_START" (20_memory R56). -/
abbrev Admissible (c : Config) : Prop := c.fontBase.toNat + 80 ≤ c.progStart.toNat

end Config

end Sys2Proof
end

