-- ==== Sys2Proof/Machine/State.lean ====
section
/-! DEFINITION. The state of one core instance (10_state R20), the errors a host call can return (60_exceptions R221), the
calls the model refuses, the host's calls (60_exceptions R245), and the state right after construct() (10_state R40). -/

namespace Sys2Proof.Machine

/-- The error taxonomy (R221), in the order of its codes 1 to 7, each with the info it records. A call that raises one ends at
once (R220) and no later call runs on the instance (R228). All are SAFE: where the original might have gone on (a masked
address, a masked key index, a loosely decoded word), the model stops, so no false claim can be proved. -/
inductive Fault where
  /-- Code 1, raised by 2nnn when SP = 16; `a` is the address of the CALL (R102). Safe. -/
  | stackOverflow (a : Word)
  /-- Code 2, raised by 00EE when SP = 0; `a` is the address of the RET (R103). Safe. -/
  | stackUnderflow (a : Word)
  /-- Code 3, raised by key_press(k) and key_release(k) with k > 15 and by Ex9E, ExA1 with V[x] > 15 (R242, R243, R110,
  R111). Safe. -/
  | invalidKeyIndex (k : Nat)
  /-- Code 4, raised by tick() when the decoder returns Unrecognized(w) (R223). Safe. -/
  | unrecognizedOpcode (w : Word)
  /-- Code 5, raised by 0nnn (R112). Safe. -/
  | unsupportedSystemCall (w : Word)
  /-- Code 6, raised by fetch, Dxyn, Fx33, Fx55, Fx65 with the first address above 0xFFF (R52, R53, R71). Safe. -/
  | memoryOutOfBounds (addr : Nat)
  /-- Code 7, raised by load_program (R261). Safe. -/
  | programTooLarge (len : Nat)
  deriving DecidableEq, Repr

/-- What the model gives no step ("refused"). All are SAFE: nothing is proved of what follows. -/
inductive Refusal where
  /-- Raised by exec for an instruction that has no meaning yet. Safe. -/
  | notModelled (mnemonic : String)
  /-- Raised by every host call on a faulted instance (R228, R246). Safe. -/
  | instanceFaulted
  /-- Raised by load_program after a tick or after an earlier load_program (R261, D24). Safe. -/
  | loadProgramMisused
  deriving DecidableEq, Repr

/-- The host's calls on an existing instance (R245). construct() is `construct`: it makes an instance. -/
inductive HostOp where
  | tick
  | tickTimers
  | keyPress (k : Nat)
  | keyRelease (k : Nat)
  | displaySnapshot
  | loadProgram (bytes : List Byte)
  deriving DecidableEq, Repr

/-- What a host call returns (R245): ok, the 2048 cells of a snapshot in row-major order (R244), or an error (R220). -/
inductive Reply where
  | ok
  | bitmap (cells : List Bool)
  | error (e : Fault)
  deriving DecidableEq, Repr

/-- Memory as a list of (address, byte) cells in the canonical form of `Memory.wf` (Ops.lean): 4096 bytes (R50), of which the
list holds those that differ from their reset contents. -/
abbrev Memory := List Host.Cell

/-- The frame buffer: 32 rows of 64 columns, true = pixel set (R36). -/
abbrev Display := Vector (Vector Bool 64) 32

/-- The state of one core instance (R20) with the bookkeeping of R261 and the model's own fields. Plain data. -/
@[ext]
structure State where
  /-- The model's own: the configuration of the machine (00_scope R7), which no step changes (assumption log 13). -/
  config : Config
  /-- MEM (R50). -/
  mem : Memory
  /-- V[0..15]; V[15] is VF (R22, R23). -/
  v : Vector Byte 16
  /-- I (R30). -/
  index : Word
  /-- pc (R26). -/
  pc : Word
  /-- STACK[0..15] (R31). -/
  stack : Vector Word 16
  /-- SP, 0..16 (R31). -/
  sp : Fin 17
  /-- DT (R33). -/
  dt : Byte
  /-- ST (R34). -/
  st : Byte
  /-- KEY[0..15], true = key down (R35). -/
  keys : Vector Bool 16
  /-- DISP[0..31][0..63] (R36). -/
  disp : Display
  /-- none, or the error that ended the instance (R20, R228). -/
  faulted : Option Fault
  /-- Neither tick() nor load_program() has run on the instance yet (R261; assumption log 10). -/
  loadable : Bool
  /-- The model's own: how many random bytes have been drawn (R165; assumption log 8). -/
  draws : Nat
  /-- The model's own: the host's coming calls, the next one first (R245; assumption log 9). -/
  calls : List HostOp
  deriving DecidableEq, Repr

/-- The values construct() leaves unspecified (R40): a free input of the launch, under no law. -/
structure LaunchValues where
  /-- Memory cells outside the glyph set; cells at other addresses are ignored. -/
  cells : List Host.Cell
  v : Vector Byte 16
  index : Word
  stack : Vector Word 16
  dt : Byte
  st : Byte
  disp : Display
  deriving DecidableEq, Repr

/-- The unspecified values that `State.reset` takes: all zero. DESIGN CHOICE: the spec gives none (assumption log 1, 2). -/
def LaunchValues.zero : LaunchValues where
  cells := []
  v := Vector.replicate 16 0#8
  index := 0#16
  stack := Vector.replicate 16 0#16
  dt := 0#8
  st := 0#8
  disp := Vector.replicate 32 (Vector.replicate 64 false)

/-- The machine right after construct() (R40, R260): glyphs preloaded (an unlisted address reads as its reset contents),
pc = PROG_START, SP = 0, all keys up, not faulted, with every parameter of R7 at its default (assumption log 13). The values
R40 leaves unspecified are those of `LaunchValues.zero` (assumption log 1, 2); no program is loaded (assumption log 12). -/
def State.reset : State where
  config := Config.default
  mem := []
  v := LaunchValues.zero.v
  index := LaunchValues.zero.index
  pc := Config.default.progStart.setWidth 16
  stack := LaunchValues.zero.stack
  sp := 0
  dt := LaunchValues.zero.dt
  st := LaunchValues.zero.st
  keys := Vector.replicate 16 false
  disp := LaunchValues.zero.disp
  faulted := none
  loadable := true
  draws := 0
  calls := []

end Sys2Proof.Machine
end

