-- ==== Sys2Proof/Machine/Ops.lean ====
section
/-! DEFINITION. The named operations over memory, registers, the stack, the keypad latch and the frame buffer; raising an
error; fetching an instruction word. Every instruction meaning is written over these. -/

namespace Sys2Proof.Machine

/-! ## Raising an error -/

/-- `raise E(info)` (60_exceptions R220): the current host call ends at once and returns E(info). This is the spec's whole
description of taking an exception: "An error saves no state, changes no mode, switches no stack, and transfers control to no
vector or handler address" (R227), and the state it leaves is unspecified (R228; see `leavesFaulted`). There is no return
from it (R229). -/
def raise (e : Fault) : Host.Outcome State Fault Refusal := .fault e

/-- What an error leaves behind (R228): an instance whose `faulted` component holds the error, every other component
unspecified (assumption log 11). -/
def leavesFaulted (e : Fault) (s : State) : Prop := s.faulted = some e

/-- The end of an instruction whose checks may have failed: the next state, or the error raised. -/
def finish : Except Fault State → Host.Outcome State Fault Refusal
  | .ok s => .next s
  | .error e => raise e

/-! ## Memory (20_memory) -/

/-- The reset contents of an address: the glyph set at FONT_BASE (R55), and 0 elsewhere. DESIGN CHOICE for the latter: the
spec calls it unspecified (R40; assumption log 2). This is what an unlisted address reads as. -/
def Memory.background (c : Config) (a : Nat) : Byte :=
  if c.fontBase.toNat ≤ a then c.glyphData.toList.getD (a - c.fontBase.toNat) 0#8 else 0#8

/-- MEM[a] of a memory in canonical form. -/
def Memory.get (c : Config) : Memory → Nat → Byte
  | [], a => Memory.background c a
  | (b, x) :: rest, a =>
    if b < a then Memory.get c rest a else if b = a then x else Memory.background c a

/-- Put a cell in front of a memory, unless it says what the address reads as anyway. -/
def Memory.cons (c : Config) (a : Nat) (x : Byte) (m : Memory) : Memory :=
  if x = Memory.background c a then m else (a, x) :: m

/-- MEM[a] <- x, keeping the canonical form. -/
def Memory.set (c : Config) : Memory → Nat → Byte → Memory
  | [], a, x => Memory.cons c a x []
  | (b, y) :: rest, a, x =>
    if b < a then (b, y) :: Memory.set c rest a x
    else if b = a then Memory.cons c a x rest
    else Memory.cons c a x ((b, y) :: rest)

/-- The canonical form above a bound: addresses at least `lo`, inside the address space, strictly rising, and no cell equal to
what its address reads as when unlisted. -/
def Memory.wfFrom (c : Config) : Nat → Memory → Bool
  | _, [] => true
  | lo, (a, x) :: rest =>
    decide (lo ≤ a) && decide (a < Config.memSize) && decide (x ≠ Memory.background c a) && Memory.wfFrom c (a + 1) rest

/-- The canonical form: equal memories are equal lists. -/
def Memory.wf (c : Config) (m : Memory) : Bool := Memory.wfFrom c 0 m

/-- MEM[a] of a state. -/
def State.byte (s : State) (a : Nat) : Byte := Memory.get s.config s.mem a

/-- A state's memory is in the canonical form. -/
abbrev State.MemWf (s : State) : Prop := Memory.wf s.config s.mem = true

/-- `MemRead(addr, 1)` (R52): the address is exact, never wrapped or masked (R54). -/
def memRead (addr : Nat) (s : State) : Except Fault Byte :=
  if addr < Config.memSize then .ok (s.byte addr) else .error (.memoryOutOfBounds addr)

/-- `MemWrite(addr, 1, x)` (R53): no address is protected (D26). -/
def memWrite (addr : Nat) (x : Byte) (s : State) : Except Fault State :=
  if addr < Config.memSize then .ok { s with mem := Memory.set s.config s.mem addr x } else .error (.memoryOutOfBounds addr)

/-- Writes at ascending addresses from `addr`, one byte each (R59); the lowest failing address is reported (R225). -/
def memWriteList (addr : Nat) : List Byte → State → Except Fault State
  | [], s => .ok s
  | x :: xs, s =>
    match memWrite addr x s with
    | .ok s' => memWriteList (addr + 1) xs s'
    | .error e => .error e

/-- Reads of `n` bytes at ascending addresses from `addr` (R59); the lowest failing address is reported (R225). -/
def memReadList (addr : Nat) : Nat → State → Except Fault (List Byte)
  | 0, _ => .ok []
  | n + 1, s =>
    match memRead addr s with
    | .error e => .error e
    | .ok x =>
      match memReadList (addr + 1) n s with
      | .ok xs => .ok (x :: xs)
      | .error e => .error e

/-- `Fetch(a)` (30_encoding R71): two bytes at pc and pc + 1, big-endian; pc may be odd (R28). -/
def fetch (s : State) : Except Fault Word :=
  match memRead s.pc.toNat s with
  | .error e => .error e
  | .ok hi =>
    match memRead (s.pc.toNat + 1) s with
    | .ok lo => .ok (wordOfBytes hi lo)
    | .error e => .error e

/-! ## Registers (10_state) -/

/-- V[x] (R22): no register is hardwired. -/
def State.reg (s : State) (x : RegIdx) : Byte := s.v[x]

/-- V[x] <- b (R22). -/
def State.setReg (s : State) (x : RegIdx) (b : Byte) : State := { s with v := s.v.set x b }

/-- The index of VF, the flag register (R23). -/
def VF : RegIdx := 15

/-- The value pc holds when `target` is written to it: the low bits, as many as pc has (00_scope R7, R12). With the default
width of 16 bits it is the target itself. -/
def pcOf (c : Config) (target : Word) : Word := BitVec.ofNat 16 (target.toNat % 2 ^ c.pcWidth.bits)

/-- pc <- target. -/
def State.setPc (s : State) (target : Word) : State := { s with pc := pcOf s.config target }

/-- I <- a (R30). -/
def State.setIndex (s : State) (a : Word) : State := { s with index := a }

/-- DT <- b (R33). -/
def State.setDelay (s : State) (b : Byte) : State := { s with dt := b }

/-- ST <- b (R34). -/
def State.setSound (s : State) (b : Byte) : State := { s with st := b }

/-- DISP <- d (R36). -/
def State.setDisp (s : State) (d : Display) : State := { s with disp := d }

/-- The address the executing instruction was fetched from: pc is that address plus 2 (R27; assumption log 6). -/
def State.fetchAddr (s : State) : Word := s.pc - 2

/-- A conditional skip (40_control_flow R109): pc <- pc + 2 when the condition holds. -/
def State.skipIf (s : State) (cond : Bool) : State := if cond then s.setPc (s.pc + 2) else s

/-- A result and then a flag, in this order, so that with x = F the flag is what VF ends with (00_scope R13, 10_state R24). -/
def State.setRegFlag (s : State) (x : RegIdx) (result flag : Byte) : State := (s.setReg x result).setReg VF flag

/-! ## Call stack (10_state R31) -/

/-- Push a return address (40_control_flow R102): StackOverflow(a) when SP = 16. -/
def State.push (s : State) (target : Word) : Except Fault State :=
  if h : s.sp.val < 16 then
    .ok { s with stack := s.stack.set s.sp.val target h, sp := ⟨s.sp.val + 1, by omega⟩ }
  else .error (.stackOverflow s.fetchAddr)

/-- Pop a return address into pc (40_control_flow R103): StackUnderflow(a) when SP = 0. The slot keeps its value (R32). -/
def State.popPc (s : State) : Except Fault State :=
  if h : 0 < s.sp.val then
    .ok { s with pc := pcOf s.config s.stack[s.sp.val - 1], sp := ⟨s.sp.val - 1, by omega⟩ }
  else .error (.stackUnderflow s.fetchAddr)

/-! ## Keypad latch (10_state R35) -/

/-- KEY[k] for an index an instruction or the host gives: InvalidKeyIndex(k) when k > 15 (R110, R111, R242, R243). -/
def keyIndex (k : Nat) : Except Fault (Fin 16) :=
  if h : k < 16 then .ok ⟨k, h⟩ else .error (.invalidKeyIndex k)

/-- KEY[k] <- b. -/
def State.setKey (s : State) (k : Fin 16) (b : Bool) : State := { s with keys := s.keys.set k b }

/-- The scan of Fx0A (45_keywait R190): ascending, a later match overwrites an earlier one (R191). -/
def State.scanKeys (s : State) : Option (Fin 16) :=
  (List.finRange 16).foldl (fun found k => if s.keys[k] then some k else found) none

/-! ## Frame buffer (10_state R36) -/

/-- DISP[r][col]. -/
def pixel (d : Display) (r : Fin 32) (col : Fin 64) : Bool := d[r][col]

/-- DISP[r][col] <- b. -/
def setPixel (d : Display) (r : Fin 32) (col : Fin 64) (b : Bool) : Display := d.set r (d[r].set col b)

/-- Every cell unset (46_display R200). -/
def clearDisplay : Display := Vector.replicate 32 (Vector.replicate 64 false)

/-- The cells in row-major order, index r × 64 + col (R36, 60_exceptions R244). -/
def snapshot (d : Display) : List Bool :=
  (List.finRange 32).flatMap fun r => (List.finRange 64).map fun col => pixel d r col

end Sys2Proof.Machine
end

