-- ==== Sys2Proof/Machine/Operands.lean ====
section
/-! DEFINITION. How operands are formed (30_encoding R74) and what an instruction computes from them before it writes
anything: results of the ALU (42_register_alu R150), BCD digits, glyph addresses, the registers of a bulk transfer. -/

namespace Sys2Proof.Machine

/-- `zext_16(nnn)` (R74). -/
def zextAddr (nnn : Addr12) : Word := nnn.setWidth 16

/-- `zext_16(b)` of a register's value, for the 16-bit sums on pc and I. -/
def zextByte (b : Byte) : Word := b.setWidth 16

/-- The register 8xy6 and 8xyE shift, by the parameter SHIFT_SOURCE (00_scope R7, D1). -/
def shiftOperand (src : Config.ShiftSource) (x y : RegIdx) : RegIdx :=
  match src with
  | .vx => x
  | .vy => y

/-- The 8-bit sum mod 256 (R150, R145, R131). -/
def sum8 (a b : Byte) : Byte := a + b

/-- The 8-bit difference mod 256 (R150, R146, R147). -/
def diff8 (a b : Byte) : Byte := a - b

/-- `v >> 1` (R148). -/
def half8 (a : Byte) : Byte := a >>> 1

/-- `(v << 1) mod 256` (R149). -/
def twice8 (a : Byte) : Byte := a <<< 1

/-- `FONT_BASE + 5 * (b & 0x0F)` (43_index_random_timers R162, C3). -/
def glyphAddress (c : Config) (b : Byte) : Word := BitVec.ofNat 16 (c.fontBase.toNat + 5 * (b &&& 0x0F#8).toNat)

/-- Hundreds, tens and ones, most significant first (44_memory_transfer R180). -/
def bcdDigits (b : Byte) : List Byte :=
  [BitVec.ofNat 8 (b.toNat / 100), BitVec.ofNat 8 (b.toNat / 10 % 10), BitVec.ofNat 8 (b.toNat % 10)]

/-- The registers 0..x of a bulk transfer, inclusive, ascending (R181, R182). -/
def regsUpTo (x : RegIdx) : List RegIdx := (List.finRange 16).filter fun i => decide (i ≤ x)

/-- `(I + x + 1) mod 65536` (R181, R182, D16). -/
def advanceIndex (a : Word) (x : RegIdx) : Word := a + BitVec.ofNat 16 (x.val + 1)

end Sys2Proof.Machine
end

