-- ==== Sys2Proof/Machine/Flags.lean ====
section
/-! DEFINITION. The values written to VF (10_state R23): each is 0 or 1. -/

namespace Sys2Proof.Machine

/-- `bool(p)` (00_scope R11) as a byte. -/
def boolByte (p : Bool) : Byte := if p then 1#8 else 0#8

/-- Carry out of bit 7: 1 if the exact sum is 256 or more (42_register_alu R145). -/
def carryFlag (a b : Byte) : Byte := boolByte (decide (a.toNat + b.toNat ≥ 256))

/-- NOT borrow of a - b: 1 if a ≥ b, equality included (R146, R147, C2). -/
def noBorrowFlag (a b : Byte) : Byte := boolByte (decide (a.toNat ≥ b.toNat))

/-- `src & 1`: bit 0 of the shift source before the shift (R148). -/
def lsbFlag (src : Byte) : Byte := src &&& 1#8

/-- `(src >> 7) & 1`: bit 7 of the shift source before the shift (R149). -/
def msbFlag (src : Byte) : Byte := (src >>> 7) &&& 1#8

/-- 1 if some set pixel was turned off (46_display R201). -/
def collisionFlag (collision : Bool) : Byte := boolByte collision

end Sys2Proof.Machine
end

