-- ==== Sys2Proof/Machine/Alu.lean ====
section
/-! DEFINITION. Register-register operations and shifts (42_register_alu). Operands are read before any write, and the flag is
written last (00_scope R13). -/

namespace Sys2Proof.Machine

/-- LD Vx, Vy (R140). -/
def execCopy (x y : RegIdx) (s : State) : Host.Outcome State Fault Refusal := .next (s.setReg x (s.reg y))

/-- OR Vx, Vy (R141): no flag. -/
def execOr (x y : RegIdx) (s : State) : Host.Outcome State Fault Refusal := .next (s.setReg x (s.reg x ||| s.reg y))

/-- AND Vx, Vy (R142): no flag. -/
def execAnd (x y : RegIdx) (s : State) : Host.Outcome State Fault Refusal := .next (s.setReg x (s.reg x &&& s.reg y))

/-- XOR Vx, Vy (R143): no flag. -/
def execXor (x y : RegIdx) (s : State) : Host.Outcome State Fault Refusal := .next (s.setReg x (s.reg x ^^^ s.reg y))

/-- ADD Vx, Vy (R145): VF = carry. -/
def execAdd (x y : RegIdx) (s : State) : Host.Outcome State Fault Refusal :=
  .next (s.setRegFlag x (sum8 (s.reg x) (s.reg y)) (carryFlag (s.reg x) (s.reg y)))

/-- SUB Vx, Vy (R146): VF = NOT borrow of Vx - Vy. -/
def execSub (x y : RegIdx) (s : State) : Host.Outcome State Fault Refusal :=
  .next (s.setRegFlag x (diff8 (s.reg x) (s.reg y)) (noBorrowFlag (s.reg x) (s.reg y)))

/-- SUBN Vx, Vy (R147): VF = NOT borrow of Vy - Vx. -/
def execSubReverse (x y : RegIdx) (s : State) : Host.Outcome State Fault Refusal :=
  .next (s.setRegFlag x (diff8 (s.reg y) (s.reg x)) (noBorrowFlag (s.reg y) (s.reg x)))

/-- 8xy6 with the shift source as a parameter (R148, D1): VF = the source's bit 0. -/
def shiftRightFrom (src : Config.ShiftSource) (x y : RegIdx) (s : State) : State :=
  s.setRegFlag x (half8 (s.reg (shiftOperand src x y))) (lsbFlag (s.reg (shiftOperand src x y)))

/-- 8xyE with the shift source as a parameter (R149, D1): VF = the source's bit 7. -/
def shiftLeftFrom (src : Config.ShiftSource) (x y : RegIdx) (s : State) : State :=
  s.setRegFlag x (twice8 (s.reg (shiftOperand src x y))) (msbFlag (s.reg (shiftOperand src x y)))

/-- SHR Vx, Vy (R148), from the source SHIFT_SOURCE names (R7). -/
def execShiftRight (x y : RegIdx) (s : State) : Host.Outcome State Fault Refusal :=
  .next (shiftRightFrom s.config.shiftSource x y s)

/-- SHL Vx, Vy (R149), from the source SHIFT_SOURCE names (R7). -/
def execShiftLeft (x y : RegIdx) (s : State) : Host.Outcome State Fault Refusal :=
  .next (shiftLeftFrom s.config.shiftSource x y s)

end Sys2Proof.Machine
end

