-- ==== Sys2Proof/Machine/ControlFlow.lean ====
section
/-! DEFINITION. Control flow, skips and the system call (40_control_flow). On entry pc = a + 2, where a is the address the
instruction was fetched from (30_encoding R70). -/

namespace Sys2Proof.Machine

/-- JP nnn (R100). -/
def execJump (nnn : Addr12) (s : State) : Host.Outcome State Fault Refusal := .next (s.setPc (zextAddr nnn))

/-- JP V0, nnn (R101): the exact sum with V[0]. -/
def execJumpOffset (nnn : Addr12) (s : State) : Host.Outcome State Fault Refusal :=
  .next (s.setPc (zextAddr nnn + zextByte (s.reg 0)))

/-- CALL nnn (R102): pushes the pc already advanced past the call, then jumps. -/
def execCall (nnn : Addr12) (s : State) : Host.Outcome State Fault Refusal :=
  match s.push s.pc with
  | .ok s' => .next (s'.setPc (zextAddr nnn))
  | .error e => raise e

/-- RET (R103). -/
def execRet (s : State) : Host.Outcome State Fault Refusal := finish s.popPc

/-- SE Vx, kk (R104). -/
def execSkipEqImm (x : RegIdx) (kk : Byte) (s : State) : Host.Outcome State Fault Refusal :=
  .next (s.skipIf (decide (s.reg x = kk)))

/-- SNE Vx, kk (R105). -/
def execSkipNeImm (x : RegIdx) (kk : Byte) (s : State) : Host.Outcome State Fault Refusal :=
  .next (s.skipIf (decide (s.reg x ≠ kk)))

/-- SE Vx, Vy (R106). -/
def execSkipEqReg (x y : RegIdx) (s : State) : Host.Outcome State Fault Refusal :=
  .next (s.skipIf (decide (s.reg x = s.reg y)))

/-- SNE Vx, Vy (R107). -/
def execSkipNeReg (x y : RegIdx) (s : State) : Host.Outcome State Fault Refusal :=
  .next (s.skipIf (decide (s.reg x ≠ s.reg y)))

/-- SKP Vx (R110): InvalidKeyIndex(V[x]) when V[x] > 15. -/
def execSkipKey (x : RegIdx) (s : State) : Host.Outcome State Fault Refusal :=
  match keyIndex (s.reg x).toNat with
  | .ok k => .next (s.skipIf s.keys[k])
  | .error e => raise e

/-- SKNP Vx (R111): InvalidKeyIndex(V[x]) when V[x] > 15. -/
def execSkipNotKey (x : RegIdx) (s : State) : Host.Outcome State Fault Refusal :=
  match keyIndex (s.reg x).toNat with
  | .ok k => .next (s.skipIf (!s.keys[k]))
  | .error e => raise e

/-- SYS nnn (R112): always UnsupportedSystemCall(w), w the instruction's own word. -/
def execSysCall (nnn : Addr12) (_s : State) : Host.Outcome State Fault Refusal :=
  raise (.unsupportedSystemCall (zextAddr nnn))

end Sys2Proof.Machine
end

