-- ==== Sys2Proof/Machine/Display.lean ====
section
/-! DEFINITION. The frame buffer's instructions (46_display): clear, and the XOR sprite compositor with its collision
detector. A drawing in progress is the display with the accumulated collision flag. -/

namespace Sys2Proof.Machine

/-- CLS (R200). -/
def execClear (s : State) : Host.Outcome State Fault Refusal := .next (s.setDisp clearDisplay)

/-- One set bit of the sprite (R201): `px <- (vx + col) mod 64`, `py <- (vy + row) mod 32`; the cell is inverted, and its prior
value is ORed into the collision flag. -/
def drawBit (vx vy : Byte) (row col : Nat) (c : Display × Bool) : Display × Bool :=
  (setPixel c.1 (Fin.ofNat 32 (vy.toNat + row)) (Fin.ofNat 64 (vx.toNat + col))
      (!pixel c.1 (Fin.ofNat 32 (vy.toNat + row)) (Fin.ofNat 64 (vx.toNat + col))),
    c.2 || pixel c.1 (Fin.ofNat 32 (vy.toNat + row)) (Fin.ofNat 64 (vx.toNat + col)))

/-- Bit `col` of a sprite byte, most significant bit first: `b[7 - col]` (R201). -/
def spriteBit (b : Byte) (col : Nat) : Bool := b.getLsbD (7 - col)

/-- One sprite row: the 8 bits from left to right; a zero bit changes nothing (R201). -/
def drawRow (vx vy : Byte) (row : Nat) (b : Byte) (c : Display × Bool) : Display × Bool :=
  (List.range 8).foldl (fun c col => if spriteBit b col then drawBit vx vy row col c else c) c

/-- The sprite's rows from top to bottom, numbered from `row` (R201). -/
def drawRows (vx vy : Byte) : Nat → List Byte → Display × Bool → Display × Bool
  | _, [], c => c
  | row, b :: bs, c => drawRows vx vy (row + 1) bs (drawRow vx vy row b c)

/-- A drawing put into the state: the display, then VF = collision (R201). -/
def State.finishDraw (s : State) (c : Display × Bool) : State := (s.setDisp c.1).setReg VF (collisionFlag c.2)

/-- DRW Vx, Vy, n (R201): reads n bytes at I (none when n = 0), draws them at (Vx, Vy), and sets VF to the collision. The bytes
are read before any is drawn: memory and display are apart, so the order is not observable (assumption log 7). -/
def execDraw (x y : RegIdx) (n : BitVec 4) (s : State) : Host.Outcome State Fault Refusal :=
  match memReadList s.index.toNat n.toNat s with
  | .ok sprite => .next (s.finishDraw (drawRows (s.reg x) (s.reg y) 0 sprite (s.disp, false)))
  | .error e => raise e

end Sys2Proof.Machine
end

