-- ==== Sys2Proof/Machine/Immediate.lean ====
section
/-! DEFINITION. Immediate load and arithmetic (41_immediate). -/

namespace Sys2Proof.Machine

/-- LD Vx, kk (R130). -/
def execLoadImm (x : RegIdx) (kk : Byte) (s : State) : Host.Outcome State Fault Refusal := .next (s.setReg x kk)

/-- ADD Vx, kk (R131): mod 256, no flag (C4). -/
def execAddImm (x : RegIdx) (kk : Byte) (s : State) : Host.Outcome State Fault Refusal :=
  .next (s.setReg x (sum8 (s.reg x) kk))

end Sys2Proof.Machine
end

