-- ==== Sys2Proof/Machine/IndexTimers.lean ====
section
/-! DEFINITION. Index register, randomization and timer access (43_index_random_timers). -/

namespace Sys2Proof.Machine

/-- LD I, nnn (R160). -/
def execSetIndex (nnn : Addr12) (s : State) : Host.Outcome State Fault Refusal := .next (s.setIndex (zextAddr nnn))

/-- ADD I, Vx (R161): mod 65536, no flag (D15). -/
def execAddIndex (x : RegIdx) (s : State) : Host.Outcome State Fault Refusal :=
  .next (s.setIndex (s.index + zextByte (s.reg x)))

/-- LD F, Vx (R162): the glyph of the low nibble (C3). -/
def execGlyphAddr (x : RegIdx) (s : State) : Host.Outcome State Fault Refusal :=
  .next (s.setIndex (glyphAddress s.config (s.reg x)))

/-- RandomByte() (R165): the next draw, a free value, and the state in which it has been drawn (assumption log 8). -/
def drawByte (s : State) : Byte × State := (Config.randomByte s.draws, { s with draws := s.draws + 1 })

/-- V[x] <- r & kk for a drawn byte r (R166). -/
def setMasked (x : RegIdx) (kk : Byte) (drawn : Byte × State) : State := drawn.2.setReg x (drawn.1 &&& kk)

/-- RND Vx, kk (R166). -/
def execRandom (x : RegIdx) (kk : Byte) (s : State) : Host.Outcome State Fault Refusal :=
  .next (setMasked x kk (drawByte s))

/-- LD Vx, DT (R170). -/
def execGetDelay (x : RegIdx) (s : State) : Host.Outcome State Fault Refusal := .next (s.setReg x s.dt)

/-- LD DT, Vx (R171). -/
def execSetDelay (x : RegIdx) (s : State) : Host.Outcome State Fault Refusal := .next (s.setDelay (s.reg x))

/-- LD ST, Vx (R172). -/
def execSetSound (x : RegIdx) (s : State) : Host.Outcome State Fault Refusal := .next (s.setSound (s.reg x))

end Sys2Proof.Machine
end

