-- ==== Sys2Proof/Machine/KeyWait.lean ====
section
/-! DEFINITION. Key-wait (45_keywait): blocking by retry. -/

namespace Sys2Proof.Machine

/-- LD Vx, K (R190): the highest key down (R191) into V[x]; with no key down, pc is rewound by 2 so that the same instruction
is fetched by the next tick (R193). -/
def execWaitKey (x : RegIdx) (s : State) : Host.Outcome State Fault Refusal :=
  match s.scanKeys with
  | some k => .next (s.setReg x (BitVec.ofNat 8 k.val))
  | none => .next (s.setPc (s.pc - 2))

end Sys2Proof.Machine
end

