-- ==== Sys2Proof/Machine/Transfer.lean ====
section
/-! DEFINITION. BCD conversion and bulk register transfer (44_memory_transfer). Addresses I + k are exact sums (20_memory
R54). -/

namespace Sys2Proof.Machine

/-- LD B, Vx (R180): three digits at I, I + 1, I + 2; I unchanged (D27). -/
def execBcd (x : RegIdx) (s : State) : Host.Outcome State Fault Refusal :=
  finish (memWriteList s.index.toNat (bcdDigits (s.reg x)) s)

/-- LD [I], Vx (R181): V[0..x] to memory at I, then I advances by x + 1. -/
def execStoreRegs (x : RegIdx) (s : State) : Host.Outcome State Fault Refusal :=
  match memWriteList s.index.toNat ((regsUpTo x).map s.reg) s with
  | .ok s' => .next (s'.setIndex (advanceIndex s.index x))
  | .error e => raise e

/-- The loop of R182: V[i] <- MemRead(base + i, 1) for each listed i in order. -/
def loadRegsFrom (base : Nat) : List RegIdx → State → Except Fault State
  | [], s => .ok s
  | i :: rest, s =>
    match memRead (base + i.val) s with
    | .ok b => loadRegsFrom base rest (s.setReg i b)
    | .error e => .error e

/-- LD Vx, [I] (R182): V[0..x] from memory at I, then I advances by x + 1; with x = F, VF is loaded too (C5). -/
def execLoadRegs (x : RegIdx) (s : State) : Host.Outcome State Fault Refusal :=
  match loadRegsFrom s.index.toNat (regsUpTo x) s with
  | .ok s' => .next (s'.setIndex (advanceIndex s.index x))
  | .error e => raise e

end Sys2Proof.Machine
end

