-- ==== Sys2Proof/Machine/Dispatch.lean ====
section
/-! DEFINITION. Execute(inst) of 30_encoding R70: one arm per constructor of Instr, in the order of R75. -/

namespace Sys2Proof.Machine

def exec (i : Instr) (s : State) : Host.Outcome State Fault Refusal :=
  match i with
  | .jump nnn => Sys2Proof.Machine.execJump nnn s
  | .jumpOffset nnn => Sys2Proof.Machine.execJumpOffset nnn s
  | .call nnn => Sys2Proof.Machine.execCall nnn s
  | .ret => Sys2Proof.Machine.execRet s
  | .skipEqImm x kk => Sys2Proof.Machine.execSkipEqImm x kk s
  | .skipNeImm x kk => Sys2Proof.Machine.execSkipNeImm x kk s
  | .skipEqReg x y => Sys2Proof.Machine.execSkipEqReg x y s
  | .skipNeReg x y => Sys2Proof.Machine.execSkipNeReg x y s
  | .skipKey x => Sys2Proof.Machine.execSkipKey x s
  | .skipNotKey x => Sys2Proof.Machine.execSkipNotKey x s
  | .sysCall nnn => Sys2Proof.Machine.execSysCall nnn s
  | .loadImm x kk => Sys2Proof.Machine.execLoadImm x kk s
  | .addImm x kk => Sys2Proof.Machine.execAddImm x kk s
  | .copy x y => Sys2Proof.Machine.execCopy x y s
  | .or x y => Sys2Proof.Machine.execOr x y s
  | .and x y => Sys2Proof.Machine.execAnd x y s
  | .xor x y => Sys2Proof.Machine.execXor x y s
  | .add x y => Sys2Proof.Machine.execAdd x y s
  | .sub x y => Sys2Proof.Machine.execSub x y s
  | .subReverse x y => Sys2Proof.Machine.execSubReverse x y s
  | .shiftRight x y => Sys2Proof.Machine.execShiftRight x y s
  | .shiftLeft x y => Sys2Proof.Machine.execShiftLeft x y s
  | .setIndex nnn => Sys2Proof.Machine.execSetIndex nnn s
  | .addIndex x => Sys2Proof.Machine.execAddIndex x s
  | .glyphAddr x => Sys2Proof.Machine.execGlyphAddr x s
  | .random x kk => Sys2Proof.Machine.execRandom x kk s
  | .getDelay x => Sys2Proof.Machine.execGetDelay x s
  | .setDelay x => Sys2Proof.Machine.execSetDelay x s
  | .setSound x => Sys2Proof.Machine.execSetSound x s
  | .bcd x => Sys2Proof.Machine.execBcd x s
  | .storeRegs x => Sys2Proof.Machine.execStoreRegs x s
  | .loadRegs x => Sys2Proof.Machine.execLoadRegs x s
  | .waitKey x => Sys2Proof.Machine.execWaitKey x s
  | .draw x y n => Sys2Proof.Machine.execDraw x y n s
  | .clear => Sys2Proof.Machine.execClear s

end Sys2Proof.Machine
end

