-- ==== Sys2Proof/Machine/HostOps.lean ====
section
/-! DEFINITION. The host's operations (60_exceptions R245): construct, load_program, tick, tick_timers, key_press, key_release,
display_snapshot; and the relation between an instance before a call, the reply, and the instance after it. -/

namespace Sys2Proof.Machine

/-! ## construct() (70_reset_and_hazards R260) -/

/-- An address of the glyph set (20_memory R55, R56). -/
def inGlyphSet (c : Config) (a : Nat) : Bool := decide (c.fontBase.toNat ≤ a) && decide (a < c.fontBase.toNat + 80)

/-- The memory construct() leaves: GLYPH_DATA at FONT_BASE, and any bytes elsewhere (10_state R40). -/
def launchMemory (c : Config) : List Host.Cell → Memory
  | [] => []
  | (a, b) :: rest =>
    if a < Config.memSize && !inGlyphSet c a then Memory.set c (launchMemory c rest) a b else launchMemory c rest

/-- construct() (R260, R40): a fresh instance, for any configuration (00_scope R7) and any unspecified values. -/
def construct (c : Config) (u : LaunchValues) : State where
  config := c
  mem := launchMemory c u.cells
  v := u.v
  index := u.index
  pc := zextAddr c.progStart
  stack := u.stack
  sp := 0
  dt := u.dt
  st := u.st
  keys := Vector.replicate 16 false
  disp := u.disp
  faulted := none
  loadable := true
  draws := 0
  calls := []

/-! ## The operations on an instance -/

/-- The state in which the fetched instruction runs (30_encoding R70): pc advanced by 2 "unconditionally, before dispatch", and
a tick counted against load_program (R261). -/
def tickEntry (s : State) : State := { s.setPc (s.pc + 2) with loadable := false }

/-- One instruction word from the state it was fetched in: decode, then execute or raise (R70, R223). -/
def runWord (w : Word) (s : State) : Host.Outcome State Fault Refusal :=
  match decode w with
  | .instr i => exec i (tickEntry s)
  | .unrecognized u => raise (.unrecognizedOpcode u)

/-- tick() on an instance that is not faulted: exactly one fetch-decode-execute cycle (R70). -/
def tick (s : State) : Host.Outcome State Fault Refusal :=
  match fetch s with
  | .ok w => runWord w s
  | .error e => raise e

/-- "Decrement-if-positive" of one timer (60_exceptions R240). -/
def countDown (b : Byte) : Byte := if b = 0#8 then 0#8 else b - 1#8

/-- tick_timers() (R240): both timers; pc and everything else unchanged. -/
def tickTimers (s : State) : Host.Outcome State Fault Refusal :=
  .next ((s.setDelay (countDown s.dt)).setSound (countDown s.st))

/-- key_press(k) and key_release(k) (R242, R243): the latch of key k; InvalidKeyIndex(k) when k > 15. -/
def latchKey (k : Nat) (down : Bool) (s : State) : Host.Outcome State Fault Refusal :=
  match keyIndex k with
  | .ok key => .next (s.setKey key down)
  | .error e => raise e

/-- load_program(bytes) (R261): once, before the first tick; byte i lands at PROG_START + i. -/
def loadProgram (bytes : List Byte) (s : State) : Host.Outcome State Fault Refusal :=
  if !s.loadable then .refused .loadProgramMisused
  else if bytes.length > Config.memSize - s.config.progStart.toNat then raise (.programTooLarge bytes.length)
  else
    match memWriteList s.config.progStart.toNat bytes s with
    | .ok s' => .next { s' with loadable := false }
    | .error e => raise e

/-- One host call (R245). On a faulted instance every call is refused (R228). display_snapshot() changes no state (R244). -/
def hostCall (op : HostOp) (s : State) : Host.Outcome State Fault Refusal :=
  if s.faulted.isSome then .refused .instanceFaulted
  else
    match op with
    | .tick => tick s
    | .tickTimers => tickTimers s
    | .keyPress k => latchKey k true s
    | .keyRelease k => latchKey k false s
    | .displaySnapshot => .next s
    | .loadProgram bytes => loadProgram bytes s

/-- What a call that raised no error returns: the bitmap for display_snapshot() (R244), ok for the others. -/
def replyOf (op : HostOp) (s : State) : Reply :=
  match op with
  | .displaySnapshot => .bitmap (snapshot s.disp)
  | .tick | .tickTimers | .keyPress _ | .keyRelease _ | .loadProgram _ => .ok

/-- One host call as the host sees it (R220, R228, R245): a call that succeeds replies and leaves the next state; a call that
raises E replies with E and leaves an instance faulted with E, its other components unspecified; a refused call has no step. -/
def HostStep (s : State) (op : HostOp) (reply : Reply) (s' : State) : Prop :=
  match hostCall op s with
  | .next t => reply = replyOf op s ∧ s' = t
  | .fault e => reply = .error e ∧ leavesFaulted e s'
  | .refused _ => False

/-- A sequence of host calls with their replies (R245, R262). -/
def HostRun : State → List (HostOp × Reply) → State → Prop
  | s, [], s' => s' = s
  | s, (op, reply) :: rest, s' => ∃ t, HostStep s op reply t ∧ HostRun t rest s'

/-! ## The host's coming calls -/

/-- The call the host makes next: the first of the coming calls, tick() when none is listed (assumption log 9). -/
def nextCall (s : State) : HostOp :=
  match s.calls with
  | [] => .tick
  | op :: _ => op

/-- The state in which that call is made. -/
def popCall (s : State) : State := { s with calls := s.calls.tail }

/-- The host performs its next call. -/
def hostStep (s : State) : Host.Outcome State Fault Refusal := hostCall (nextCall s) (popCall s)

/-- The calls with a tick() first. -/
def ticksNext : List HostOp → List HostOp
  | [] => []
  | .tick :: rest => .tick :: rest
  | op :: rest => .tick :: op :: rest

/-- A word stored at pc in the order fetch reads it (30_encoding R71), and the next call a tick(). Where pc lies so high that
no word can be fetched there, nothing is stored. -/
def placeWord (s : State) (w : Word) : State :=
  match memWriteList s.pc.toNat [w.extractLsb' 8 8, w.extractLsb' 0 8] s with
  | .ok s' => { s' with calls := ticksNext s.calls }
  | .error _ => s

end Sys2Proof.Machine
end

