-- ==== Sys2Proof/Machine/Step.lean ====
section
/-! DEFINITION. One step of the machine: the host's next call (60_exceptions R245), which is tick() unless `State.calls` says
otherwise; and a word placed where the next tick fetches it. -/

namespace Sys2Proof.Machine

/-- One step: one host call, atomic (10_state R39). -/
def step (s : State) : Host.Outcome State Fault Refusal := hostStep s

/-- The instruction word `w` of `nbits` bits (bits above `nbits` are 0) stored at pc, so that the next step fetches and runs
it: it stands for the load of a program (assumption log 12). -/
def State.withFetchWord (s : State) (nbits w : Nat) : State := placeWord s (BitVec.ofNat 16 (w % 2 ^ nbits))

end Sys2Proof.Machine
end

