-- ==== Sys2Proof/Safety.lean ====
section
/-! DEFINITION. What claims about the machine speak of: the invariant of its states, the end of a run (70_reset_and_hazards
R270), a safe run, what an instruction leaves unchanged, and what cannot be observed. -/

namespace Sys2Proof.Machine

/-! ## The invariant -/

/-- A return address on the stack is a call's address plus 2, at most 0x1000 (40_control_flow R102). -/
abbrev StackOk (s : State) : Prop := ∀ j : Fin 16, j.val < s.sp.val → s.stack[j].toNat ≤ 0x1000

/-- The invariant every step keeps: memory in canonical form, pc at most 0x10FE (10_state R29), and valid return addresses. -/
abbrev Inv (s : State) : Prop := s.MemWf ∧ s.pc.toNat ≤ 0x10FE ∧ StackOk s

/-! ## The end of a run (R270) -/

/-- ENDED: not faulted, and the word at pc is a jump to its own address:
`MEM[pc] = 0x10 | (pc >> 8)`, `MEM[pc + 1] = pc & 0xFF`, pc ≤ 0xFFE. -/
abbrev Ended (s : State) : Prop :=
  s.faulted = none ∧ s.pc.toNat ≤ 0xFFE ∧
    (s.byte s.pc.toNat).toNat = (0x10 ||| (s.pc.toNat >>> 8)) ∧
    (s.byte (s.pc.toNat + 1)).toNat = s.pc.toNat % 256

/-- FAILED: a host call returned an error. -/
def Failed (o : Host.Outcome State Fault Refusal) : Prop := ∃ e, o = .fault e

/-- A run of `k` steps is safe when none of its calls returns an error or is refused. -/
def SafeRun (k : Nat) (s : State) : Prop := ∃ t, core.run k s = .next t

/-! ## What an instruction writes -/

/-- V[x] becomes `b`; every other register and every other component is unchanged. -/
def SetsReg (s t : State) (x : RegIdx) (b : Byte) : Prop :=
  t.reg x = b ∧ (∀ r, r ≠ x → t.reg r = s.reg r) ∧ t = { s with v := t.v }

/-- V[x] becomes `result` (unless x = F) and VF becomes `flag`, as numbers; every other register and every other component is
unchanged (10_state R24). -/
def SetsRegThenFlag (s t : State) (x : RegIdx) (result flag : Nat) : Prop :=
  (x ≠ VF → (t.reg x).toNat = result) ∧ (t.reg VF).toNat = flag ∧
    (∀ r, r ≠ x → r ≠ VF → t.reg r = s.reg r) ∧ t = { s with v := t.v }

/-- The six instructions that write VF as a side effect (10_state R23). -/
def WritesFlag : Instr → Prop
  | .add _ _ | .sub _ _ | .subReverse _ _ | .shiftRight _ _ | .shiftLeft _ _ | .draw _ _ _ => True
  | _ => False

/-- The instructions that name V[r] as an ordinary destination (their rules in 41 to 45). -/
def NamesDestination (r : RegIdx) : Instr → Prop
  | .loadImm x _ | .addImm x _ | .copy x _ | .or x _ | .and x _ | .xor x _ => x = r
  | .add x _ | .sub x _ | .subReverse x _ | .shiftRight x _ | .shiftLeft x _ => x = r
  | .random x _ | .getDelay x | .waitKey x => x = r
  | .loadRegs x => r ≤ x
  | _ => False

/-! ## The pc after a tick (10_state R27) -/

/-- The condition of a conditional skip (R104 to R107, R110, R111). -/
def SkipTaken (s : State) : Instr → Prop
  | .skipEqImm x kk => s.reg x = kk
  | .skipNeImm x kk => s.reg x ≠ kk
  | .skipEqReg x y => s.reg x = s.reg y
  | .skipNeReg x y => s.reg x ≠ s.reg y
  | .skipKey x => ∃ k : Fin 16, (s.reg x).toNat = k.val ∧ s.keys[k] = true
  | .skipNotKey x => ∃ k : Fin 16, (s.reg x).toNat = k.val ∧ s.keys[k] = false
  | _ => False

/-- The pc an instruction fetched at s.pc leaves, by the table of R27. -/
def PcAfter (s : State) (i : Instr) (pc : Word) : Prop :=
  match i with
  | .jump nnn => pc.toNat = nnn.toNat
  | .jumpOffset nnn => pc.toNat = nnn.toNat + (s.reg 0).toNat
  | .call nnn => pc.toNat = nnn.toNat
  | .ret => ∃ j : Fin 16, j.val + 1 = s.sp.val ∧ pc = pcOf s.config s.stack[j]
  | .waitKey _ =>
    ((∃ k : Fin 16, s.keys[k] = true) → pc.toNat = s.pc.toNat + 2) ∧
      ((∀ k : Fin 16, s.keys[k] = false) → pc = s.pc)
  | _ => (SkipTaken s i → pc.toNat = s.pc.toNat + 4) ∧ (¬ SkipTaken s i → pc.toNat = s.pc.toNat + 2)

/-! ## Sprites (46_display R201) -/

/-- The sprite of Dxyn at (vx, vy), whose byte k is MEM[I + k], has a set bit at the cell (r, col): row and column counted from
(vy, vx), wrapping around; most significant bit leftmost. -/
def Covers (s : State) (vx vy : Byte) (n : BitVec 4) (r : Fin 32) (col : Fin 64) : Prop :=
  ∃ row c : Nat, row < n.toNat ∧ c < 8 ∧ (vy.toNat + row) % 32 = r.val ∧ (vx.toNat + c) % 64 = col.val ∧
    (s.byte (s.index.toNat + row)).getLsbD (7 - c) = true

/-! ## What cannot be observed -/

/-- A function applied to the next state of an outcome. -/
def mapNext (f : State → State) : Host.Outcome State Fault Refusal → Host.Outcome State Fault Refusal
  | .next s => .next (f s)
  | .fault e => .fault e
  | .refused r => .refused r

/-- The state with ST blotted out (10_state R34). -/
def hideSound (s : State) : State := { s with st := 0#8 }

/-- The state with the stale slots STACK[SP..15] blotted out (10_state R32). -/
def hideStale (s : State) : State :=
  { s with stack := Vector.ofFn fun j : Fin 16 => if j.val < s.sp.val then s.stack[j] else 0#16 }

end Sys2Proof.Machine
end

