-- ==== Sys2Proof/Certificates/Slice0/Obligations.lean ====
section
/-! DEFINITION. The statements for the provers, in the order of the spec's files. A statement says of an instruction that exec
answers a next state, what that state holds, and that everything else is unchanged; where the spec names an error, on which
operands it is raised. On entry to exec, pc is the fetch address plus 2 (10_state R27). -/

open Sys2Proof Sys2Proof.Machine

/-! ## Encoding and decoding (30_encoding) -/

/-- Words written out from the patterns of R75 decode to the instructions they stand for. -/
def Obligations.SampleWordsDecode : Prop :=
  decode 0x1234#16 = .instr (.jump 0x234#12) ∧ decode 0x00EE#16 = .instr .ret ∧
  decode 0x432A#16 = .instr (.skipNeImm 3 0x2A#8) ∧ decode 0x0123#16 = .instr (.sysCall 0x123#12) ∧
  decode 0x7203#16 = .instr (.addImm 2 0x03#8) ∧ decode 0x801E#16 = .instr (.shiftLeft 0 1) ∧
  decode 0xF21E#16 = .instr (.addIndex 2) ∧ decode 0xC30F#16 = .instr (.random 3 0x0F#8) ∧
  decode 0xF518#16 = .instr (.setSound 5) ∧ decode 0xF255#16 = .instr (.storeRegs 2) ∧
  decode 0xF30A#16 = .instr (.waitKey 3) ∧ decode 0xD123#16 = .instr (.draw 1 2 0x3#4) ∧
  decode 0x00E0#16 = .instr .clear ∧ decode 0x5121#16 = .unrecognized 0x5121#16

/-- Decoding an encoded well-formed instruction, as a word and as the two bytes in memory, gives it back: no bit of an encoding
is dropped (R73, R75, R77, 20_memory R57). -/
def Obligations.DecodeOfEncodeIsIdentity : Prop :=
  ∀ i : Instr, i.wf = true →
    decode (encode i) = .instr i ∧ ∀ rest, decodeBytes (encodeBytes i ++ rest) = .instr i rest

/-- A word that decodes to an instruction is that instruction's encoding, and the instruction is well formed: each recognized word
has one meaning (R76, R77). -/
def Obligations.EncodeOfDecodeIsIdentity : Prop :=
  ∀ (w : Word) (i : Instr), decode w = .instr i → encode i = w ∧ i.wf = true

/-- The unrecognized words are exactly the five groups of R78, and "unrecognized" carries the raw word (R72). -/
def Obligations.UnrecognizedWordsAreTheFiveGroups : Prop :=
  ∀ w : Word,
    ((∃ u, decode w = .unrecognized u) ↔
      (w.toNat / 4096 = 5 ∧ w.toNat % 16 ≠ 0) ∨
      (w.toNat / 4096 = 8 ∧ w.toNat % 16 ∈ [0x8, 0x9, 0xA, 0xB, 0xC, 0xD, 0xF]) ∨
      (w.toNat / 4096 = 9 ∧ w.toNat % 16 ≠ 0) ∨
      (w.toNat / 4096 = 0xE ∧ w.toNat % 256 ∉ [0x9E, 0xA1]) ∨
      (w.toNat / 4096 = 0xF ∧ w.toNat % 256 ∉ [0x07, 0x0A, 0x15, 0x18, 0x1E, 0x29, 0x33, 0x55, 0x65])) ∧
    ∀ u, decode w = .unrecognized u → u = w

/-- A word decodes to an instruction of a row of the opcode map exactly when `(w & mask) == match` for that row, the exact words
00E0 and 00EE taking priority over row 0nnn (R75, R76). -/
def Obligations.DecodingFollowsTheOpcodeMap : Prop :=
  ∀ (w : Word) (j : Instr),
    (∃ i, decode w = .instr i ∧ opcodeRow i = opcodeRow j) ↔
      (w &&& (opcodeRow j).1 = (opcodeRow j).2 ∧
        ((opcodeRow j).2 = 0x0000#16 → w ≠ 0x00E0#16 ∧ w ≠ 0x00EE#16))

/-! ## The tick cycle (30_encoding R70, R71; 60_exceptions R225) -/

/-- Fetch(a) for every pc: two bytes, big-endian, at an even or odd address; the first address above 0xFFF is reported (R71,
20_memory R57). -/
def Obligations.FetchReadsBigEndianWithinBounds : Prop :=
  ∀ s : State,
    (s.pc.toNat ≤ 0xFFE → ∃ w, fetch s = .ok w ∧
      w.toNat = (s.byte s.pc.toNat).toNat * 256 + (s.byte (s.pc.toNat + 1)).toNat) ∧
    (s.pc.toNat = 0xFFF → fetch s = .error (.memoryOutOfBounds 0x1000)) ∧
    (s.pc.toNat > 0xFFF → fetch s = .error (.memoryOutOfBounds s.pc.toNat))

/-- One tick runs one fetch-decode-execute cycle (R70): refused on a faulted instance; else the fetch error; else
UnrecognizedOpcode of the raw word; else UnsupportedSystemCall of the word; else the instruction, from the state with pc advanced
by 2 (the model's field `loadable` records the tick, R261; assumption log 10). -/
def Obligations.TickRunsOneCycle : Prop :=
  ∀ s : State,
    (s.faulted ≠ none → hostCall .tick s = .refused .instanceFaulted) ∧
    (s.faulted = none →
      (∀ e, fetch s = .error e → hostCall .tick s = .fault e) ∧
      (∀ w u, fetch s = .ok w → decode w = .unrecognized u → hostCall .tick s = .fault (.unrecognizedOpcode w)) ∧
      (∀ w nnn, fetch s = .ok w → decode w = .instr (.sysCall nnn) →
        hostCall .tick s = .fault (.unsupportedSystemCall w)) ∧
      (∀ w i, fetch s = .ok w → decode w = .instr i →
        hostCall .tick s = exec i { s with pc := s.pc + 2, loadable := false }))

/-- When the bytes at pc decode to an instruction, a step whose next host call is tick() is exec of it, from the state with pc moved
past the word, the call taken from the host's coming calls and the tick recorded (model's own fields: assumption log 9, 10). -/
def Obligations.StepRunsTheDecodedInstruction : Prop :=
  ∀ (s : State) (i : Instr) (rest : List Byte),
    s.faulted = none → nextCall s = .tick → s.pc.toNat ≤ 0xFFE →
    decodeBytes [s.byte s.pc.toNat, s.byte (s.pc.toNat + 1)] = .instr i rest →
    step s = exec i { s with pc := s.pc + 2, loadable := false, calls := s.calls.tail }

/-- The pc after a tick that returns ok, by the table of 10_state R27. -/
def Obligations.PcAfterTickFollowsTheTable : Prop :=
  ∀ (s t : State) (w : Word) (i : Instr),
    fetch s = .ok w → decode w = .instr i → tick s = .next t → PcAfter s i t.pc

/-! ## Memory (20_memory R52, R53, R54) -/

/-- MemRead and MemWrite: an address above 0xFFF raises MemoryOutOfBounds with that address, unmasked; below it a read gives MEM[addr],
and a write changes exactly that byte and no other component. -/
def Obligations.MemoryAccessesAreCheckedAndExact : Prop :=
  ∀ (s : State) (addr : Nat) (x : Byte),
    (addr > 0xFFF → memRead addr s = .error (.memoryOutOfBounds addr) ∧ memWrite addr x s = .error (.memoryOutOfBounds addr)) ∧
    (addr ≤ 0xFFF → memRead addr s = .ok (s.byte addr)) ∧
    (addr ≤ 0xFFF → s.MemWf →
      ∃ t, memWrite addr x s = .ok t ∧ t = { s with mem := t.mem } ∧ t.byte addr = x ∧
        ∀ a, a ≠ addr → t.byte a = s.byte a)

/-- Self-modifying code: a fetch from the address Fx55 stored to, in any state with the memory it left, reads the stored bytes as the
instruction word (R64). -/
def Obligations.LaterFetchSeesStoredBytes : Prop :=
  ∀ (s t u : State) (x : RegIdx), s.MemWf → 1 ≤ x.val → exec (.storeRegs x) s = .next t →
    (∀ a, u.byte a = t.byte a) → u.pc = s.index → fetch u = .ok (wordOfBytes (s.reg 0) (s.reg 1))

/-! ## Control flow (40_control_flow)

A value written to pc keeps as many low bits as pc has (`pcOf`, 00_scope R7): all of it with the default width of 16 bits, and all of it
with any width of R7 when it is below 2^13, as every value of a run is (10_state R29). -/

/-- JP nnn: pc <- nnn, nothing else (R100). -/
def Obligations.JumpSetsPc : Prop :=
  ∀ (nnn : Addr12) (s : State),
    decode (formatAddr 0x1#4 nnn) = .instr (.jump nnn) ∧
    ∃ t, exec (.jump nnn) s = .next t ∧ t.pc.toNat = nnn.toNat ∧ t = { s with pc := t.pc }

/-- JP V0, nnn: pc <- nnn + V[0], an exact sum that is not wrapped; nothing else (R101). -/
def Obligations.JumpOffsetAddsV0 : Prop :=
  ∀ (nnn : Addr12) (s : State),
    decode (formatAddr 0xB#4 nnn) = .instr (.jumpOffset nnn) ∧
    ∃ t, exec (.jumpOffset nnn) s = .next t ∧ t.pc.toNat = nnn.toNat + (s.reg 0).toNat ∧ t = { s with pc := t.pc }

/-- CALL nnn: pushes pc (already past the call), SP + 1, pc <- nnn, every other slot and component unchanged; at SP = 16
StackOverflow with the address of the CALL (R102). -/
def Obligations.CallPushesReturnAddress : Prop :=
  ∀ (nnn : Addr12) (s : State),
    decode (formatAddr 0x2#4 nnn) = .instr (.call nnn) ∧
    (∀ top : Fin 16, s.sp.val = top.val →
      ∃ t, exec (.call nnn) s = .next t ∧ t.stack[top] = s.pc ∧ (∀ j : Fin 16, j ≠ top → t.stack[j] = s.stack[j]) ∧
        t.sp.val = s.sp.val + 1 ∧ t.pc.toNat = nnn.toNat ∧ t = { s with pc := t.pc, stack := t.stack, sp := t.sp }) ∧
    (s.sp.val = 16 → exec (.call nnn) s = .fault (.stackOverflow (s.pc - 2)))

/-- RET: SP - 1, pc <- STACK[SP] (the slot's low bits, as many as pc has: all 16 with the default width, R7), every other component (the
slots too) unchanged; at SP = 0 StackUnderflow with the address of the RET (R103). -/
def Obligations.ReturnPopsReturnAddress : Prop :=
  ∀ s : State,
    decode 0x00EE#16 = .instr .ret ∧
    (∀ top : Fin 16, s.sp.val = top.val + 1 →
      ∃ t, exec .ret s = .next t ∧ t.pc = pcOf s.config s.stack[top] ∧ t.sp.val = top.val ∧ t = { s with pc := t.pc, sp := t.sp }) ∧
    (s.sp.val = 0 → exec .ret s = .fault (.stackUnderflow (s.pc - 2)))

/-- "Call followed by return restores the exact pre-call program counter": a RET from any state of the machine whose stack is the one
CALL left gives the pc after the call instruction and the depth before it (R103). That pc fits the width of pc (R7): after a fetch it
is at most 0x1000 (R102). -/
def Obligations.ReturnUndoesCall : Prop :=
  ∀ (nnn : Addr12) (s t u : State), exec (.call nnn) s = .next t → u.stack = t.stack → u.sp = t.sp →
    u.config = s.config → s.pc.toNat < 2 ^ s.config.pcWidth.bits →
    ∃ z, exec .ret u = .next z ∧ z.pc = s.pc ∧ z.sp = s.sp ∧ z = { u with pc := z.pc, sp := z.sp }

/-- SE Vx, kk and SNE Vx, kk: pc + 2 exactly when V[x] = kk, or V[x] ≠ kk; nothing else changes (R104, R105, R109). -/
def Obligations.SkipsOnImmediateCompare : Prop :=
  ∀ (x : RegIdx) (kk : Byte) (s : State),
    decode (formatXKK 0x3#4 x kk) = .instr (.skipEqImm x kk) ∧ decode (formatXKK 0x4#4 x kk) = .instr (.skipNeImm x kk) ∧
    exec (.skipEqImm x kk) s = .next { s with pc := if s.reg x = kk then pcOf s.config (s.pc + 2) else s.pc } ∧
    exec (.skipNeImm x kk) s = .next { s with pc := if s.reg x = kk then s.pc else pcOf s.config (s.pc + 2) }

/-- SE Vx, Vy and SNE Vx, Vy (R106, R107, R109). -/
def Obligations.SkipsOnRegisterCompare : Prop :=
  ∀ (x y : RegIdx) (s : State),
    decode (formatXYD 0x5#4 x y 0x0#4) = .instr (.skipEqReg x y) ∧
    decode (formatXYD 0x9#4 x y 0x0#4) = .instr (.skipNeReg x y) ∧
    exec (.skipEqReg x y) s = .next { s with pc := if s.reg x = s.reg y then pcOf s.config (s.pc + 2) else s.pc } ∧
    exec (.skipNeReg x y) s = .next { s with pc := if s.reg x = s.reg y then s.pc else pcOf s.config (s.pc + 2) }

/-- SKP Vx and SKNP Vx: skip when key V[x] is down, or up; the latch is not changed; V[x] > 15 raises InvalidKeyIndex(V[x]) (R110,
R111). -/
def Obligations.SkipsOnKeyLatch : Prop :=
  ∀ (x : RegIdx) (s : State),
    decode (formatXKK 0xE#4 x 0x9E#8) = .instr (.skipKey x) ∧ decode (formatXKK 0xE#4 x 0xA1#8) = .instr (.skipNotKey x) ∧
    (∀ k : Fin 16, (s.reg x).toNat = k.val →
      exec (.skipKey x) s = .next { s with pc := if s.keys[k] = true then pcOf s.config (s.pc + 2) else s.pc } ∧
      exec (.skipNotKey x) s = .next { s with pc := if s.keys[k] = true then s.pc else pcOf s.config (s.pc + 2) }) ∧
    ((s.reg x).toNat > 15 →
      exec (.skipKey x) s = .fault (.invalidKeyIndex (s.reg x).toNat) ∧
      exec (.skipNotKey x) s = .fault (.invalidKeyIndex (s.reg x).toNat))

/-- SYS nnn always raises UnsupportedSystemCall of its own word (R112). -/
def Obligations.SystemCallAlwaysRaises : Prop :=
  ∀ (nnn : Addr12) (s : State), nnn ≠ 0x0E0#12 → nnn ≠ 0x0EE#12 →
    decode (formatAddr 0x0#4 nnn) = .instr (.sysCall nnn) ∧
    exec (.sysCall nnn) s = .fault (.unsupportedSystemCall (formatAddr 0x0#4 nnn))

/-! ## Immediate (41_immediate) -/

/-- LD Vx, kk and ADD Vx, kk: V[x] <- kk, V[x] <- (V[x] + kk) mod 256; no flag (VF changes only as x = F), nothing else (R130,
R131). -/
def Obligations.ImmediateLoadAndAdd : Prop :=
  ∀ (x : RegIdx) (kk : Byte) (s : State),
    decode (formatXKK 0x6#4 x kk) = .instr (.loadImm x kk) ∧ decode (formatXKK 0x7#4 x kk) = .instr (.addImm x kk) ∧
    (∃ t, exec (.loadImm x kk) s = .next t ∧ SetsReg s t x kk) ∧
    (∃ t, exec (.addImm x kk) s = .next t ∧ SetsReg s t x (BitVec.ofNat 8 (((s.reg x).toNat + kk.toNat) % 256)))

/-! ## ALU (42_register_alu) -/

/-- LD Vx, Vy and OR, AND, XOR: V[x] gets Vy, or each bit of V[x] the OR, AND, XOR of the operands' bits; VF is not reset and nothing
else changes (R140 to R143). -/
def Obligations.CopyAndBitwiseHaveNoFlag : Prop :=
  ∀ (x y : RegIdx) (s : State),
    decode (formatXYD 0x8#4 x y 0x0#4) = .instr (.copy x y) ∧ decode (formatXYD 0x8#4 x y 0x1#4) = .instr (.or x y) ∧
    decode (formatXYD 0x8#4 x y 0x2#4) = .instr (.and x y) ∧ decode (formatXYD 0x8#4 x y 0x3#4) = .instr (.xor x y) ∧
    (∃ t, exec (.copy x y) s = .next t ∧ SetsReg s t x (s.reg y)) ∧
    (∃ t, exec (.or x y) s = .next t ∧ SetsReg s t x (t.reg x) ∧
      ∀ k, (t.reg x).getLsbD k = ((s.reg x).getLsbD k || (s.reg y).getLsbD k)) ∧
    (∃ t, exec (.and x y) s = .next t ∧ SetsReg s t x (t.reg x) ∧
      ∀ k, (t.reg x).getLsbD k = ((s.reg x).getLsbD k && (s.reg y).getLsbD k)) ∧
    (∃ t, exec (.xor x y) s = .next t ∧ SetsReg s t x (t.reg x) ∧
      ∀ k, (t.reg x).getLsbD k = Bool.xor ((s.reg x).getLsbD k) ((s.reg y).getLsbD k))

/-- ADD, SUB, SUBN: result mod 256, then VF = carry (sum ≥ 256), or NOT borrow (≥, equality included). With x = F the flag is what VF
ends with; operands are VF's old value where they name it (R145 to R147, 10_state R24). That VF is 1 at equal operands is a choice: 90 C2, 93 U3,
assumption log 14. -/
def Obligations.AddAndSubtractSetResultThenFlag : Prop :=
  ∀ (x y : RegIdx) (s : State),
    decode (formatXYD 0x8#4 x y 0x4#4) = .instr (.add x y) ∧ decode (formatXYD 0x8#4 x y 0x5#4) = .instr (.sub x y) ∧
    decode (formatXYD 0x8#4 x y 0x7#4) = .instr (.subReverse x y) ∧
    (∃ t, exec (.add x y) s = .next t ∧
      SetsRegThenFlag s t x (((s.reg x).toNat + (s.reg y).toNat) % 256)
        (if (s.reg x).toNat + (s.reg y).toNat ≥ 256 then 1 else 0)) ∧
    (∃ t, exec (.sub x y) s = .next t ∧
      SetsRegThenFlag s t x ((256 + (s.reg x).toNat - (s.reg y).toNat) % 256)
        (if (s.reg x).toNat ≥ (s.reg y).toNat then 1 else 0)) ∧
    (∃ t, exec (.subReverse x y) s = .next t ∧
      SetsRegThenFlag s t x ((256 + (s.reg y).toNat - (s.reg x).toNat) % 256)
        (if (s.reg y).toNat ≥ (s.reg x).toNat then 1 else 0))

/-- SHR and SHL: half, or twice mod 256, of the shift source; then VF = the source's bit 0, or bit 7, before the shift. The source is
V[y] with SHIFT_SOURCE = Vy, the default, and V[x] with the alternative SHIFT_SOURCE = Vx (R148, R149, 00_scope R7). -/
def Obligations.ShiftsTakeVyAndKeepTheBitShiftedOut : Prop :=
  ∀ (x y : RegIdx) (s : State),
    decode (formatXYD 0x8#4 x y 0x6#4) = .instr (.shiftRight x y) ∧
    decode (formatXYD 0x8#4 x y 0xE#4) = .instr (.shiftLeft x y) ∧
    (s.config.shiftSource = .vy →
      (∃ t, exec (.shiftRight x y) s = .next t ∧
        SetsRegThenFlag s t x ((s.reg y).toNat / 2) ((s.reg y).toNat % 2)) ∧
      (∃ t, exec (.shiftLeft x y) s = .next t ∧
        SetsRegThenFlag s t x ((s.reg y).toNat * 2 % 256) ((s.reg y).toNat / 128))) ∧
    (s.config.shiftSource = .vx →
      (∃ t, exec (.shiftRight x y) s = .next t ∧
        SetsRegThenFlag s t x ((s.reg x).toNat / 2) ((s.reg x).toNat % 2)) ∧
      (∃ t, exec (.shiftLeft x y) s = .next t ∧
        SetsRegThenFlag s t x ((s.reg x).toNat * 2 % 256) ((s.reg x).toNat / 128)))

/-- VF changes only under the six flag writers of 10_state R23, or under an instruction that names V[F] as its destination. -/
def Obligations.OnlySixInstructionsWriteTheFlag : Prop :=
  ∀ (i : Instr) (s t : State), exec i s = .next t → t.reg VF ≠ s.reg VF → WritesFlag i ∨ NamesDestination VF i

/-- A register other than VF changes only under an instruction that names it as its destination (10_state R22, R23). -/
def Obligations.RegistersChangeOnlyAsDestinations : Prop :=
  ∀ (i : Instr) (s t : State) (r : RegIdx), exec i s = .next t → r ≠ VF → t.reg r ≠ s.reg r → NamesDestination r i

/-! ## Index register, random, timers (43_index_random_timers) -/

/-- LD I, nnn; ADD I, Vx (mod 65536, no flag); LD F, Vx (FONT_BASE + 5 × low nibble): I and nothing else (R160 to
R162). That Fx29 takes the low nibble is a choice: 90 C3, assumption log 14. -/
def Obligations.IndexRegisterInstructions : Prop :=
  ∀ (nnn : Addr12) (x : RegIdx) (s : State),
    decode (formatAddr 0xA#4 nnn) = .instr (.setIndex nnn) ∧ decode (formatXKK 0xF#4 x 0x1E#8) = .instr (.addIndex x) ∧
    decode (formatXKK 0xF#4 x 0x29#8) = .instr (.glyphAddr x) ∧
    (∃ t, exec (.setIndex nnn) s = .next t ∧ t.index.toNat = nnn.toNat ∧ t = { s with index := t.index }) ∧
    (∃ t, exec (.addIndex x) s = .next t ∧ t.index.toNat = (s.index.toNat + (s.reg x).toNat) % 65536 ∧
      t = { s with index := t.index }) ∧
    (∃ t, exec (.glyphAddr x) s = .next t ∧ t.index.toNat = s.config.fontBase.toNat + 5 * ((s.reg x).toNat % 16) ∧
      t = { s with index := t.index })

/-- RND Vx, kk: V[x] <- r & kk for some drawn byte r, of which nothing else is known (so V[x] has no bit outside kk); every other
component of the core is unchanged. The draw is the model's free value (assumption log 8). -/
def Obligations.RandomIsAMaskedDraw : Prop :=
  ∀ (x : RegIdx) (kk : Byte) (s : State),
    decode (formatXKK 0xC#4 x kk) = .instr (.random x kk) ∧
    ∃ t, exec (.random x kk) s = .next t ∧ (∃ r : Byte, t.reg x = r &&& kk) ∧ t.reg x &&& ~~~kk = 0#8 ∧
      (∀ j, j ≠ x → t.reg j = s.reg j) ∧ t = { s with v := t.v, draws := t.draws }

/-- LD Vx, DT; LD DT, Vx; LD ST, Vx (R170 to R172). -/
def Obligations.TimerRegisterAccess : Prop :=
  ∀ (x : RegIdx) (s : State),
    decode (formatXKK 0xF#4 x 0x07#8) = .instr (.getDelay x) ∧ decode (formatXKK 0xF#4 x 0x15#8) = .instr (.setDelay x) ∧
    decode (formatXKK 0xF#4 x 0x18#8) = .instr (.setSound x) ∧
    (∃ t, exec (.getDelay x) s = .next t ∧ SetsReg s t x s.dt) ∧
    exec (.setDelay x) s = .next { s with dt := s.reg x } ∧
    exec (.setSound x) s = .next { s with st := s.reg x }

/-! ## BCD and bulk transfer (44_memory_transfer) -/

/-- LD B, Vx: hundreds, tens, ones at I, I + 1, I + 2; I, the registers and every other byte unchanged; I + 2 > 0xFFF raises
MemoryOutOfBounds with the first address above 0xFFF (R180). -/
def Obligations.BcdStoresThreeDigits : Prop :=
  ∀ (x : RegIdx) (s : State),
    decode (formatXKK 0xF#4 x 0x33#8) = .instr (.bcd x) ∧
    (s.MemWf → s.index.toNat + 2 ≤ 0xFFF →
      ∃ t, exec (.bcd x) s = .next t ∧ t = { s with mem := t.mem } ∧
        (t.byte s.index.toNat).toNat = (s.reg x).toNat / 100 ∧
        (t.byte (s.index.toNat + 1)).toNat = (s.reg x).toNat / 10 % 10 ∧
        (t.byte (s.index.toNat + 2)).toNat = (s.reg x).toNat % 10 ∧
        ∀ a, a < s.index.toNat ∨ s.index.toNat + 2 < a → t.byte a = s.byte a) ∧
    (s.index.toNat + 2 > 0xFFF → exec (.bcd x) s = .fault (.memoryOutOfBounds (max s.index.toNat 0x1000)))

/-- LD [I], Vx: V[0..x] at I .. I + x, then I + x + 1; every other byte and component unchanged (VF is not modified); I + x > 0xFFF raises
MemoryOutOfBounds with the first address above 0xFFF (R181). -/
def Obligations.StoreRegsWritesAndAdvancesIndex : Prop :=
  ∀ (x : RegIdx) (s : State),
    decode (formatXKK 0xF#4 x 0x55#8) = .instr (.storeRegs x) ∧
    (s.MemWf → s.index.toNat + x.val ≤ 0xFFF →
      ∃ t, exec (.storeRegs x) s = .next t ∧ t = { s with mem := t.mem, index := t.index } ∧
        t.index.toNat = (s.index.toNat + x.val + 1) % 65536 ∧
        (∀ r : RegIdx, r ≤ x → t.byte (s.index.toNat + r.val) = s.reg r) ∧
        ∀ a, a < s.index.toNat ∨ s.index.toNat + x.val < a → t.byte a = s.byte a) ∧
    (s.index.toNat + x.val > 0xFFF → exec (.storeRegs x) s = .fault (.memoryOutOfBounds (max s.index.toNat 0x1000)))

/-- LD Vx, [I]: V[r] <- MEM[I + r] for r ≤ x (VF too when x = F), then I + x + 1; every other register, memory and every other component
unchanged; I + x > 0xFFF raises MemoryOutOfBounds with the first address above 0xFFF (R182). -/
def Obligations.LoadRegsReadsAndAdvancesIndex : Prop :=
  ∀ (x : RegIdx) (s : State),
    decode (formatXKK 0xF#4 x 0x65#8) = .instr (.loadRegs x) ∧
    (s.index.toNat + x.val ≤ 0xFFF →
      ∃ t, exec (.loadRegs x) s = .next t ∧ t = { s with v := t.v, index := t.index } ∧
        t.index.toNat = (s.index.toNat + x.val + 1) % 65536 ∧
        (∀ r : RegIdx, r ≤ x → t.reg r = s.byte (s.index.toNat + r.val)) ∧
        ∀ r : RegIdx, x < r → t.reg r = s.reg r) ∧
    (s.index.toNat + x.val > 0xFFF → exec (.loadRegs x) s = .fault (.memoryOutOfBounds (max s.index.toNat 0x1000)))

/-- A load of V[0..x] from where a store of V[0..x] put them, with I set back, gives every register its value again. -/
def Obligations.LoadRegsUndoesStoreRegs : Prop :=
  ∀ (x : RegIdx) (s t u : State), s.MemWf → exec (.storeRegs x) s = .next t →
    (∀ a, u.byte a = t.byte a) → u.index = s.index →
    ∃ z, exec (.loadRegs x) u = .next z ∧ z.index = t.index ∧ (∀ r : RegIdx, r ≤ x → z.reg r = s.reg r) ∧
      ∀ r : RegIdx, x < r → z.reg r = u.reg r

/-! ## Key-wait (45_keywait) -/

/-- LD Vx, K: with no key down pc is rewound by 2 and nothing else changes; with keys down V[x] gets the highest index down and nothing else
changes (R190, R191). That the highest index wins is a choice: 90 C1, 93 U1, assumption log 14. -/
def Obligations.WaitKeyTakesTheHighestKeyOrRewinds : Prop :=
  ∀ (x : RegIdx) (s : State),
    decode (formatXKK 0xF#4 x 0x0A#8) = .instr (.waitKey x) ∧
    ((∀ k : Fin 16, s.keys[k] = false) → exec (.waitKey x) s = .next { s with pc := pcOf s.config (s.pc - 2) }) ∧
    (∀ k : Fin 16, s.keys[k] = true → (∀ j : Fin 16, k < j → s.keys[j] = false) →
      ∃ t, exec (.waitKey x) s = .next t ∧ SetsReg s t x (BitVec.ofNat 8 k.val))

/-- A tick at a key-wait with no key down leaves the program counter and every other component of the core unchanged (the model's record
that a tick has run, R261 and assumption log 10, apart); with a key down the same tick advances pc by 2 and stores
the index (R194), the highest one down, by choice (R191; 90 C1, 93 U1, assumption log 14). -/
def Obligations.KeyWaitTickWithoutKeyChangesNothing : Prop :=
  ∀ (s : State) (x : RegIdx), s.faulted = none → fetch s = .ok (formatXKK 0xF#4 x 0x0A#8) →
    ((∀ k : Fin 16, s.keys[k] = false) → hostCall .tick s = .next { s with loadable := false }) ∧
    (∀ k : Fin 16, s.keys[k] = true → (∀ j : Fin 16, k < j → s.keys[j] = false) →
      ∃ t, hostCall .tick s = .next t ∧ t.pc = s.pc + 2 ∧ t.reg x = BitVec.ofNat 8 k.val ∧
        (∀ r, r ≠ x → t.reg r = s.reg r) ∧ t = { s with v := t.v, pc := t.pc, loadable := false })

/-! ## Display (46_display) -/

/-- CLS: every cell unset, nothing else (R200). -/
def Obligations.ClearUnsetsEveryCell : Prop :=
  ∀ s : State, decode 0x00E0#16 = .instr .clear ∧
    ∃ t, exec .clear s = .next t ∧ (∀ r col, pixel t.disp r col = false) ∧ t = { s with disp := t.disp }

/-- DRW Vx, Vy, n: each cell the sprite covers is inverted, every other is unchanged; VF is 1 if a covered cell was set before, else 0
(n = 0 too); no other register or component changes. The prior value is always the one before the instruction (R202). A sprite that
leaves memory raises MemoryOutOfBounds with the first address above 0xFFF (R201). -/
def Obligations.DrawXorsTheSpriteAndReportsCollision : Prop :=
  ∀ (x y : RegIdx) (n : BitVec 4) (s : State),
    decode (formatXYD 0xD#4 x y n) = .instr (.draw x y n) ∧
    ((n = 0#4 ∨ s.index.toNat + n.toNat ≤ 0x1000) →
      ∃ t, exec (.draw x y n) s = .next t ∧
        (∀ r col, Covers s (s.reg x) (s.reg y) n r col → pixel t.disp r col = !pixel s.disp r col) ∧
        (∀ r col, ¬ Covers s (s.reg x) (s.reg y) n r col → pixel t.disp r col = pixel s.disp r col) ∧
        ((∃ r col, Covers s (s.reg x) (s.reg y) n r col ∧ pixel s.disp r col = true) → t.reg VF = 1#8) ∧
        ((∀ r col, Covers s (s.reg x) (s.reg y) n r col → pixel s.disp r col = false) → t.reg VF = 0#8) ∧
        (∀ r, r ≠ VF → t.reg r = s.reg r) ∧ t = { s with v := t.v, disp := t.disp }) ∧
    (n ≠ 0#4 → s.index.toNat + n.toNat > 0x1000 →
      exec (.draw x y n) s = .fault (.memoryOutOfBounds (max s.index.toNat 0x1000)))

/-- Within one Dxyn no cell is touched twice: if the bits at two positions of a sprite change the same cell, in any two drawings, they are
the same position; and two bits drawn in either order leave the same display and collision, so the result does not depend on the order
(R202). -/
def Obligations.SpriteTouchesNoCellTwice : Prop :=
  ∀ (vx vy : Byte) (row row' col col' : Nat), row < 15 → row' < 15 → col < 8 → col' < 8 →
    (∀ (p p' : Display × Bool) (r : Fin 32) (c : Fin 64),
      pixel (drawBit vx vy row col p).1 r c ≠ pixel p.1 r c → pixel (drawBit vx vy row' col' p').1 r c ≠ pixel p'.1 r c →
      row = row' ∧ col = col') ∧
    (∀ p : Display × Bool, ¬ (row = row' ∧ col = col') →
      drawBit vx vy row col (drawBit vx vy row' col' p) = drawBit vx vy row' col' (drawBit vx vy row col p))

/-- Drawing the same sprite twice in a row at the same coordinates restores the display; the second draw's VF is 1 exactly when a covered
cell was clear before the first; from a clear display a sprite with a set bit gives VF = 0 and then VF = 1 (R203). The second draw is from any
state with the same memory, I and coordinates: it may name other registers. -/
def Obligations.DrawingTwiceRestoresTheDisplay : Prop :=
  ∀ (s t u : State) (x y x' y' : RegIdx) (n : BitVec 4), exec (.draw x y n) s = .next t →
    u.disp = t.disp → (∀ a, u.byte a = s.byte a) → u.index = s.index → u.reg x' = s.reg x → u.reg y' = s.reg y →
    ∃ z, exec (.draw x' y' n) u = .next z ∧ z.disp = s.disp ∧
      (z.reg VF = 1#8 ↔ ∃ r col, Covers s (s.reg x) (s.reg y) n r col ∧ pixel s.disp r col = false) ∧
      ((∀ r col, pixel s.disp r col = false) → (∃ r col, Covers s (s.reg x) (s.reg y) n r col) →
        t.reg VF = 0#8 ∧ z.reg VF = 1#8)

/-! ## Who writes what -/

/-- No instruction writes the keypad latch (10_state R35), the display is written only by 00E0 and Dxyn (46_display R204), DT only by
Fx15 and ST only by Fx18 (60_exceptions R240), and no instruction writes `faulted` or the model's own `loadable` and
`calls` (assumption log 10, 9). -/
def Obligations.DevicesAreWrittenOnlyByTheirInstructions : Prop :=
  ∀ (i : Instr) (s t : State), exec i s = .next t →
    t.keys = s.keys ∧ (t.disp ≠ s.disp → i = .clear ∨ ∃ x y n, i = .draw x y n) ∧
    (t.dt ≠ s.dt → ∃ x, i = .setDelay x) ∧ (t.st ≠ s.st → ∃ x, i = .setSound x) ∧
    t.faulted = s.faulted ∧ t.loadable = s.loadable ∧ t.calls = s.calls

/-- Memory is written only by Fx33 and Fx55 (20_memory R50), I only by Annn, Fx1E, Fx29, Fx55, Fx65 (10_state R30), the stack and SP only by
2nnn and 00EE (10_state R31). -/
def Obligations.MemoryIndexAndStackWriters : Prop :=
  ∀ (i : Instr) (s t : State), exec i s = .next t →
    (t.mem ≠ s.mem → ∃ x, i = .bcd x ∨ i = .storeRegs x) ∧
    (t.index ≠ s.index → (∃ nnn, i = .setIndex nnn) ∨
      ∃ x, i = .addIndex x ∨ i = .glyphAddr x ∨ i = .storeRegs x ∨ i = .loadRegs x) ∧
    (t.stack ≠ s.stack → ∃ nnn, i = .call nnn) ∧
    (t.sp ≠ s.sp → (∃ nnn, i = .call nnn) ∨ i = .ret)

/-! ## Host operations (60_exceptions, 70_reset_and_hazards) -/

/-- tick_timers(): each timer goes down by 1 and stays at 0; nothing else changes; refused on a faulted instance (R240). -/
def Obligations.TimerTickDecrementsIfPositive : Prop :=
  ∀ s : State,
    (s.faulted ≠ none → hostCall .tickTimers s = .refused .instanceFaulted) ∧
    (s.faulted = none →
      ∃ t, hostCall .tickTimers s = .next t ∧ t.dt.toNat = s.dt.toNat - 1 ∧ t.st.toNat = s.st.toNat - 1 ∧
        t = { s with dt := t.dt, st := t.st })

/-- key_press(k) sets, key_release(k) clears latch k and changes nothing else; k > 15 raises InvalidKeyIndex(k); refused on a faulted
instance (R242, R243). -/
def Obligations.KeyCallsSetAndClearOneLatch : Prop :=
  ∀ s : State,
    (s.faulted ≠ none → ∀ k : Nat,
      hostCall (.keyPress k) s = .refused .instanceFaulted ∧ hostCall (.keyRelease k) s = .refused .instanceFaulted) ∧
    (s.faulted = none →
      (∀ k : Fin 16,
        (∃ t, hostCall (.keyPress k.val) s = .next t ∧ t.keys[k] = true ∧
          (∀ j : Fin 16, j ≠ k → t.keys[j] = s.keys[j]) ∧ t = { s with keys := t.keys }) ∧
        (∃ t, hostCall (.keyRelease k.val) s = .next t ∧ t.keys[k] = false ∧
          (∀ j : Fin 16, j ≠ k → t.keys[j] = s.keys[j]) ∧ t = { s with keys := t.keys })) ∧
      (∀ k : Nat, k > 15 →
        hostCall (.keyPress k) s = .fault (.invalidKeyIndex k) ∧ hostCall (.keyRelease k) s = .fault (.invalidKeyIndex k)))

/-- display_snapshot() changes no state, raises no error, and replies with the 2048 cells in row-major order, cell (r, col) at index
r × 64 + col (R244, 10_state R36). -/
def Obligations.SnapshotIsRowMajor : Prop :=
  ∀ s : State, s.faulted = none →
    hostCall .displaySnapshot s = .next s ∧
    ∃ cells, HostStep s .displaySnapshot (.bitmap cells) s ∧ cells.length = 2048 ∧
      ∀ (r : Fin 32) (col : Fin 64), cells[r.val * 64 + col.val]? = some (pixel s.disp r col)

/-- construct(), for every configuration and every choice of the unspecified values: pc = PROG_START, SP = 0, all keys up, not faulted,
glyphs at FONT_BASE; every other component is whatever was chosen, and each byte outside the glyph set can be any byte (10_state R40, R260).
At the defaults of R7 (20_memory R55) PROG_START is 0x200, FONT_BASE 0, and shifts take Vy (assumption log 13). -/
def Obligations.ConstructSetsWhatTheSpecSets : Prop :=
  (∀ (c : Config) (u : LaunchValues),
    (construct c u).config = c ∧ (construct c u).pc.toNat = c.progStart.toNat ∧ (construct c u).sp.val = 0 ∧
    (∀ k : Fin 16, (construct c u).keys[k] = false) ∧ (construct c u).faulted = none ∧
    (∀ k : Fin 80, (construct c u).byte (c.fontBase.toNat + k.val) = c.glyphData[k]) ∧
    (construct c u).v = u.v ∧ (construct c u).index = u.index ∧ (construct c u).stack = u.stack ∧ (construct c u).dt = u.dt ∧
    (construct c u).st = u.st ∧ (construct c u).disp = u.disp ∧
    (∀ (a : Nat) (b : Byte), a < c.fontBase.toNat ∨ c.fontBase.toNat + 80 ≤ a → a ≤ 0xFFF →
      (construct c { u with cells := (a, b) :: u.cells }).byte a = b)) ∧
  Config.default.progStart.toNat = 0x200 ∧ Config.default.fontBase.toNat = 0 ∧ Config.default.shiftSource = .vy ∧
    Config.default.pcWidth.bits = 16

/-- load_program(bytes): byte i at PROG_START + i, every other byte and component unchanged, once and before the first tick; more than
4096 - PROG_START bytes (3584 at the default) raise ProgramTooLarge; on a faulted instance, and after a tick or a load, it is refused
(R261; that a tick or a load has run is the model's field `loadable`, assumption log 10). -/
def Obligations.LoadProgramCopiesTheImage : Prop :=
  ∀ (bytes : List Byte) (s : State),
    (s.faulted ≠ none → hostCall (.loadProgram bytes) s = .refused .instanceFaulted) ∧
    (s.faulted = none → s.loadable = true → s.config.progStart.toNat + bytes.length ≤ 4096 → s.MemWf →
      ∃ t, hostCall (.loadProgram bytes) s = .next t ∧ t = { s with mem := t.mem, loadable := false } ∧
        (∀ k b, bytes[k]? = some b → t.byte (s.config.progStart.toNat + k) = b) ∧
        ∀ a, a < s.config.progStart.toNat ∨ s.config.progStart.toNat + bytes.length ≤ a → t.byte a = s.byte a) ∧
    (s.faulted = none → s.loadable = true → s.config.progStart.toNat + bytes.length > 4096 →
      hostCall (.loadProgram bytes) s = .fault (.programTooLarge bytes.length)) ∧
    (s.faulted = none → s.loadable = false → hostCall (.loadProgram bytes) s = .refused .loadProgramMisused)

/-- A launch is construct() and then load_program(image): the first tick fetches the image's first two bytes, the first the high byte, for
every configuration and every choice of the unspecified values (R262, R261; the model's field `loadable` records the load, assumption
log 10). -/
def Obligations.FirstTickFetchesTheImage : Prop :=
  ∀ (c : Config) (u : LaunchValues) (b0 b1 : Byte) (rest : List Byte), c.progStart.toNat + (b0 :: b1 :: rest).length ≤ 4096 →
    ∃ t, hostCall (.loadProgram (b0 :: b1 :: rest)) (construct c u) = .next t ∧ fetch t = .ok (wordOfBytes b0 b1) ∧
      t.loadable = false

/-- The address map after construct() and load_program(image), for every configuration R56 admits (FONT_BASE + 80 ≤ PROG_START) and every
choice of the unspecified values: the glyph set at FONT_BASE, the image at PROG_START (20_memory R56). -/
def Obligations.LaunchLaysOutTheAddressMap : Prop :=
  ∀ (c : Config) (u : LaunchValues) (image : List Byte), c.Admissible → c.progStart.toNat + image.length ≤ 4096 →
    ∃ t, hostCall (.loadProgram image) (construct c u) = .next t ∧
      (∀ k : Fin 80, t.byte (c.fontBase.toNat + k.val) = c.glyphData[k]) ∧
      ∀ k b, image[k]? = some b → t.byte (c.progStart.toNat + k) = b

/-- An error ends the instance: the call replies with the error and leaves an instance faulted with it, its other components open; every later
call on it is refused, so it has no step (R220, R228). -/
def Obligations.ErrorEndsTheInstance : Prop :=
  ∀ (s s' : State) (op : HostOp) (e : Fault), hostCall op s = .fault e →
    (∀ reply, HostStep s op reply s' ↔ reply = .error e ∧ s'.faulted = some e) ∧
    (s'.faulted = some e → ∀ op' reply s'', hostCall op' s' = .refused .instanceFaulted ∧ ¬ HostStep s' op' reply s'')

/-- A step is the host's next call: the first of the coming calls, or tick(), on the state with that call taken away (the model's own
convention, assumption log 9). -/
def Obligations.StepPerformsTheNextHostCall : Prop :=
  ∀ s : State, (s.calls = [] → step s = hostCall .tick s) ∧
    ∀ op rest, s.calls = op :: rest → step s = hostCall op { s with calls := rest }

/-- From an ENDED state every further tick leaves the whole state unchanged, however many are made (R270). The model's own fields are
as they stay: the record that a tick has run already made, no other call coming (assumption log 10, 9). -/
def Obligations.EndedRunStaysEnded : Prop :=
  ∀ (k : Nat) (s : State), Ended s → s.loadable = false → s.calls = [] → core.run k s = .next s

/-- A step that tick() makes from an ENDED state, at any point of the host's calls, changes no component of the core (R270); the
model's field `loadable` records it (assumption log 10). -/
def Obligations.TickAtSelfJumpChangesNothing : Prop :=
  ∀ s : State, Ended s → hostCall .tick s = .next { s with loadable := false } ∧ Ended { s with loadable := false }

/-! ## Invariants of every step -/

/-- Every step keeps the invariant: memory in canonical form, pc at most 0x10FE (10_state R29), valid return addresses. -/
def Obligations.StepKeepsTheInvariant : Prop :=
  ∀ s t : State, Inv s → step s = .next t → Inv t

/-- Every launch of every configuration, the model's reset state (assumption log 1, 2) among them, meets the invariant. -/
def Obligations.LaunchMeetsTheInvariant : Prop :=
  (∀ (c : Config) (u : LaunchValues), Inv (construct c u)) ∧ Inv State.reset

/-- No pc computation wraps (10_state R29): from a state that meets the invariant, a step's pc is at most 0x10FE, and the address fetched from
and its successor lie inside memory whenever a tick answers a next state. -/
def Obligations.PcNeverWraps : Prop :=
  ∀ s t : State, Inv s → hostCall .tick s = .next t → s.pc.toNat ≤ 0xFFE ∧ t.pc.toNat ≤ 0x10FE

/-- No step changes the configuration: the parameters of R7 are fixed for the machine (assumption log 13). -/
def Obligations.StepKeepsTheConfiguration : Prop :=
  ∀ s t : State, step s = .next t → t.config = s.config

/-! ## What cannot be observed -/

/-- The value of ST never reaches anything but ST: two states that differ in ST only step, with the same draws, to the same outcome but for
ST (10_state R34). That Cxkk draws the same byte in both is a choice: one constant serves both, assumption log 8. -/
def Obligations.SoundTimerIsUnobservable : Prop :=
  ∀ (s : State) (b : Byte), mapNext hideSound (step { s with st := b }) = mapNext hideSound (step s)

/-- The stale slots STACK[SP..15] are never read: two states that differ in them only step, with the same draws, to the same outcome but for
stale slots (10_state R32). That Cxkk draws the same byte in both is a choice: one constant serves both, assumption log 8. -/
def Obligations.StaleStackSlotsAreUnobservable : Prop :=
  ∀ s s' : State, hideStale s = hideStale s' → mapNext hideStale (step s) = mapNext hideStale (step s')
end

