-- ==== Sys2Proof/Laws/Decode.lean ====
section
/-! SUPPORT. Words and fields as numbers: what each field is of a word, what each format of 30_encoding R73 is of its fields,
and from both the fields of a formatted word and the word of its fields. -/

namespace Sys2Proof

/-! ## Numbers -/

theorem append_toNat {m n : Nat} (a : BitVec m) (b : BitVec n) : (a ++ b).toNat = a.toNat * 2 ^ n + b.toNat := by
  rw [BitVec.toNat_append, ← Nat.shiftLeft_add_eq_or_of_lt b.isLt, Nat.shiftLeft_eq]

theorem fieldC_toNat (w : Word) : (fieldC w).toNat = w.toNat / 4096 := by
  have := w.isLt
  simp [fieldC, BitVec.extractLsb'_toNat, Nat.shiftRight_eq_div_pow]; omega

theorem fieldX_val (w : Word) : (fieldX w).val = w.toNat / 256 % 16 := by
  show (w.extractLsb' 8 4).toNat = _
  simp [BitVec.extractLsb'_toNat, Nat.shiftRight_eq_div_pow]

theorem fieldY_val (w : Word) : (fieldY w).val = w.toNat / 16 % 16 := by
  show (w.extractLsb' 4 4).toNat = _
  simp [BitVec.extractLsb'_toNat, Nat.shiftRight_eq_div_pow]

theorem fieldD_toNat (w : Word) : (fieldD w).toNat = w.toNat % 16 := by
  simp [fieldD, BitVec.extractLsb'_toNat]

theorem fieldNNN_toNat (w : Word) : (fieldNNN w).toNat = w.toNat % 4096 := by
  simp [fieldNNN, BitVec.extractLsb'_toNat]

theorem fieldKK_toNat (w : Word) : (fieldKK w).toNat = w.toNat % 256 := by
  simp [fieldKK, BitVec.extractLsb'_toNat]

theorem wordOfBytes_toNat (hi lo : Byte) : (wordOfBytes hi lo).toNat = hi.toNat * 256 + lo.toNat := append_toNat hi lo

theorem formatAddr_toNat (c : BitVec 4) (nnn : Addr12) : (formatAddr c nnn).toNat = c.toNat * 4096 + nnn.toNat :=
  append_toNat c nnn

theorem formatXKK_toNat (c : BitVec 4) (x : RegIdx) (kk : Byte) :
    (formatXKK c x kk).toNat = c.toNat * 4096 + x.val * 256 + kk.toNat := by
  simp only [formatXKK, append_toNat, BitVec.toNat_ofFin]
  omega

theorem formatXYD_toNat (c : BitVec 4) (x y : RegIdx) (d : BitVec 4) :
    (formatXYD c x y d).toNat = c.toNat * 4096 + x.val * 256 + y.val * 16 + d.toNat := by
  simp only [formatXYD, append_toNat, BitVec.toNat_ofFin]
  omega

/-! ## The fields of a formatted word -/

theorem fieldC_formatAddr (c : BitVec 4) (nnn : Addr12) : fieldC (formatAddr c nnn) = c := by
  apply BitVec.eq_of_toNat_eq
  have := nnn.isLt
  rw [fieldC_toNat, formatAddr_toNat]; omega

theorem fieldNNN_formatAddr (c : BitVec 4) (nnn : Addr12) : fieldNNN (formatAddr c nnn) = nnn := by
  apply BitVec.eq_of_toNat_eq
  have := nnn.isLt
  rw [fieldNNN_toNat, formatAddr_toNat]; omega

theorem fieldC_formatXKK (c : BitVec 4) (x : RegIdx) (kk : Byte) : fieldC (formatXKK c x kk) = c := by
  apply BitVec.eq_of_toNat_eq
  have := kk.isLt
  rw [fieldC_toNat, formatXKK_toNat]; omega

theorem fieldX_formatXKK (c : BitVec 4) (x : RegIdx) (kk : Byte) : fieldX (formatXKK c x kk) = x := by
  apply Fin.ext
  have := kk.isLt
  rw [fieldX_val, formatXKK_toNat]; omega

theorem fieldKK_formatXKK (c : BitVec 4) (x : RegIdx) (kk : Byte) : fieldKK (formatXKK c x kk) = kk := by
  apply BitVec.eq_of_toNat_eq
  have := kk.isLt
  rw [fieldKK_toNat, formatXKK_toNat]; omega

theorem fieldC_formatXYD (c : BitVec 4) (x y : RegIdx) (d : BitVec 4) : fieldC (formatXYD c x y d) = c := by
  apply BitVec.eq_of_toNat_eq
  have := d.isLt
  rw [fieldC_toNat, formatXYD_toNat]; omega

theorem fieldX_formatXYD (c : BitVec 4) (x y : RegIdx) (d : BitVec 4) : fieldX (formatXYD c x y d) = x := by
  apply Fin.ext
  have := d.isLt
  rw [fieldX_val, formatXYD_toNat]; omega

theorem fieldY_formatXYD (c : BitVec 4) (x y : RegIdx) (d : BitVec 4) : fieldY (formatXYD c x y d) = y := by
  apply Fin.ext
  have := d.isLt
  rw [fieldY_val, formatXYD_toNat]; omega

theorem fieldD_formatXYD (c : BitVec 4) (x y : RegIdx) (d : BitVec 4) : fieldD (formatXYD c x y d) = d := by
  apply BitVec.eq_of_toNat_eq
  have := d.isLt
  rw [fieldD_toNat, formatXYD_toNat]; omega

/-! ## The word of its fields -/

theorem formatAddr_fields (w : Word) : formatAddr (fieldC w) (fieldNNN w) = w := by
  apply BitVec.eq_of_toNat_eq
  rw [formatAddr_toNat, fieldC_toNat, fieldNNN_toNat]; omega

theorem formatXKK_fields (w : Word) : formatXKK (fieldC w) (fieldX w) (fieldKK w) = w := by
  apply BitVec.eq_of_toNat_eq
  rw [formatXKK_toNat, fieldC_toNat, fieldX_val, fieldKK_toNat]; omega

theorem formatXYD_fields (w : Word) : formatXYD (fieldC w) (fieldX w) (fieldY w) (fieldD w) = w := by
  apply BitVec.eq_of_toNat_eq
  rw [formatXYD_toNat, fieldC_toNat, fieldX_val, fieldY_val, fieldD_toNat]; omega

/-- The bytes of a word, in memory order, make the word (20_memory R57). -/
theorem wordOfBytes_extract (w : Word) : wordOfBytes (w.extractLsb' 8 8) (w.extractLsb' 0 8) = w := by
  apply BitVec.eq_of_toNat_eq
  have := w.isLt
  rw [wordOfBytes_toNat]
  simp [BitVec.extractLsb'_toNat, Nat.shiftRight_eq_div_pow]; omega

end Sys2Proof
end

