-- ==== Sys2Proof/Laws/State.lean ====
section
/-! SUPPORT. One lemma per field of State and per update of it, so that no proof unfolds a record update; and the registers
after each update. -/

namespace Sys2Proof.Machine

variable (s : State)

/-! ### setReg -/

@[simp] theorem State.setReg_config (x : RegIdx) (b : Byte) : (s.setReg x b).config = s.config := rfl
@[simp] theorem State.setReg_mem (x : RegIdx) (b : Byte) : (s.setReg x b).mem = s.mem := rfl
@[simp] theorem State.setReg_v (x : RegIdx) (b : Byte) : (s.setReg x b).v = s.v.set x b := rfl
@[simp] theorem State.setReg_index (x : RegIdx) (b : Byte) : (s.setReg x b).index = s.index := rfl
@[simp] theorem State.setReg_pc (x : RegIdx) (b : Byte) : (s.setReg x b).pc = s.pc := rfl
@[simp] theorem State.setReg_stack (x : RegIdx) (b : Byte) : (s.setReg x b).stack = s.stack := rfl
@[simp] theorem State.setReg_sp (x : RegIdx) (b : Byte) : (s.setReg x b).sp = s.sp := rfl
@[simp] theorem State.setReg_dt (x : RegIdx) (b : Byte) : (s.setReg x b).dt = s.dt := rfl
@[simp] theorem State.setReg_st (x : RegIdx) (b : Byte) : (s.setReg x b).st = s.st := rfl
@[simp] theorem State.setReg_keys (x : RegIdx) (b : Byte) : (s.setReg x b).keys = s.keys := rfl
@[simp] theorem State.setReg_disp (x : RegIdx) (b : Byte) : (s.setReg x b).disp = s.disp := rfl
@[simp] theorem State.setReg_faulted (x : RegIdx) (b : Byte) : (s.setReg x b).faulted = s.faulted := rfl
@[simp] theorem State.setReg_loadable (x : RegIdx) (b : Byte) : (s.setReg x b).loadable = s.loadable := rfl
@[simp] theorem State.setReg_draws (x : RegIdx) (b : Byte) : (s.setReg x b).draws = s.draws := rfl
@[simp] theorem State.setReg_calls (x : RegIdx) (b : Byte) : (s.setReg x b).calls = s.calls := rfl

/-! ### setPc -/

@[simp] theorem State.setPc_config (a : Word) : (s.setPc a).config = s.config := rfl
@[simp] theorem State.setPc_mem (a : Word) : (s.setPc a).mem = s.mem := rfl
@[simp] theorem State.setPc_v (a : Word) : (s.setPc a).v = s.v := rfl
@[simp] theorem State.setPc_index (a : Word) : (s.setPc a).index = s.index := rfl
@[simp] theorem State.setPc_pc (a : Word) : (s.setPc a).pc = pcOf s.config a := rfl
@[simp] theorem State.setPc_stack (a : Word) : (s.setPc a).stack = s.stack := rfl
@[simp] theorem State.setPc_sp (a : Word) : (s.setPc a).sp = s.sp := rfl
@[simp] theorem State.setPc_dt (a : Word) : (s.setPc a).dt = s.dt := rfl
@[simp] theorem State.setPc_st (a : Word) : (s.setPc a).st = s.st := rfl
@[simp] theorem State.setPc_keys (a : Word) : (s.setPc a).keys = s.keys := rfl
@[simp] theorem State.setPc_disp (a : Word) : (s.setPc a).disp = s.disp := rfl
@[simp] theorem State.setPc_faulted (a : Word) : (s.setPc a).faulted = s.faulted := rfl
@[simp] theorem State.setPc_loadable (a : Word) : (s.setPc a).loadable = s.loadable := rfl
@[simp] theorem State.setPc_draws (a : Word) : (s.setPc a).draws = s.draws := rfl
@[simp] theorem State.setPc_calls (a : Word) : (s.setPc a).calls = s.calls := rfl

/-! ### setIndex -/

@[simp] theorem State.setIndex_config (a : Word) : (s.setIndex a).config = s.config := rfl
@[simp] theorem State.setIndex_mem (a : Word) : (s.setIndex a).mem = s.mem := rfl
@[simp] theorem State.setIndex_v (a : Word) : (s.setIndex a).v = s.v := rfl
@[simp] theorem State.setIndex_index (a : Word) : (s.setIndex a).index = a := rfl
@[simp] theorem State.setIndex_pc (a : Word) : (s.setIndex a).pc = s.pc := rfl
@[simp] theorem State.setIndex_stack (a : Word) : (s.setIndex a).stack = s.stack := rfl
@[simp] theorem State.setIndex_sp (a : Word) : (s.setIndex a).sp = s.sp := rfl
@[simp] theorem State.setIndex_dt (a : Word) : (s.setIndex a).dt = s.dt := rfl
@[simp] theorem State.setIndex_st (a : Word) : (s.setIndex a).st = s.st := rfl
@[simp] theorem State.setIndex_keys (a : Word) : (s.setIndex a).keys = s.keys := rfl
@[simp] theorem State.setIndex_disp (a : Word) : (s.setIndex a).disp = s.disp := rfl
@[simp] theorem State.setIndex_faulted (a : Word) : (s.setIndex a).faulted = s.faulted := rfl
@[simp] theorem State.setIndex_loadable (a : Word) : (s.setIndex a).loadable = s.loadable := rfl
@[simp] theorem State.setIndex_draws (a : Word) : (s.setIndex a).draws = s.draws := rfl
@[simp] theorem State.setIndex_calls (a : Word) : (s.setIndex a).calls = s.calls := rfl

/-! ### setDelay -/

@[simp] theorem State.setDelay_config (b : Byte) : (s.setDelay b).config = s.config := rfl
@[simp] theorem State.setDelay_mem (b : Byte) : (s.setDelay b).mem = s.mem := rfl
@[simp] theorem State.setDelay_v (b : Byte) : (s.setDelay b).v = s.v := rfl
@[simp] theorem State.setDelay_index (b : Byte) : (s.setDelay b).index = s.index := rfl
@[simp] theorem State.setDelay_pc (b : Byte) : (s.setDelay b).pc = s.pc := rfl
@[simp] theorem State.setDelay_stack (b : Byte) : (s.setDelay b).stack = s.stack := rfl
@[simp] theorem State.setDelay_sp (b : Byte) : (s.setDelay b).sp = s.sp := rfl
@[simp] theorem State.setDelay_dt (b : Byte) : (s.setDelay b).dt = b := rfl
@[simp] theorem State.setDelay_st (b : Byte) : (s.setDelay b).st = s.st := rfl
@[simp] theorem State.setDelay_keys (b : Byte) : (s.setDelay b).keys = s.keys := rfl
@[simp] theorem State.setDelay_disp (b : Byte) : (s.setDelay b).disp = s.disp := rfl
@[simp] theorem State.setDelay_faulted (b : Byte) : (s.setDelay b).faulted = s.faulted := rfl
@[simp] theorem State.setDelay_loadable (b : Byte) : (s.setDelay b).loadable = s.loadable := rfl
@[simp] theorem State.setDelay_draws (b : Byte) : (s.setDelay b).draws = s.draws := rfl
@[simp] theorem State.setDelay_calls (b : Byte) : (s.setDelay b).calls = s.calls := rfl

/-! ### setSound -/

@[simp] theorem State.setSound_config (b : Byte) : (s.setSound b).config = s.config := rfl
@[simp] theorem State.setSound_mem (b : Byte) : (s.setSound b).mem = s.mem := rfl
@[simp] theorem State.setSound_v (b : Byte) : (s.setSound b).v = s.v := rfl
@[simp] theorem State.setSound_index (b : Byte) : (s.setSound b).index = s.index := rfl
@[simp] theorem State.setSound_pc (b : Byte) : (s.setSound b).pc = s.pc := rfl
@[simp] theorem State.setSound_stack (b : Byte) : (s.setSound b).stack = s.stack := rfl
@[simp] theorem State.setSound_sp (b : Byte) : (s.setSound b).sp = s.sp := rfl
@[simp] theorem State.setSound_dt (b : Byte) : (s.setSound b).dt = s.dt := rfl
@[simp] theorem State.setSound_st (b : Byte) : (s.setSound b).st = b := rfl
@[simp] theorem State.setSound_keys (b : Byte) : (s.setSound b).keys = s.keys := rfl
@[simp] theorem State.setSound_disp (b : Byte) : (s.setSound b).disp = s.disp := rfl
@[simp] theorem State.setSound_faulted (b : Byte) : (s.setSound b).faulted = s.faulted := rfl
@[simp] theorem State.setSound_loadable (b : Byte) : (s.setSound b).loadable = s.loadable := rfl
@[simp] theorem State.setSound_draws (b : Byte) : (s.setSound b).draws = s.draws := rfl
@[simp] theorem State.setSound_calls (b : Byte) : (s.setSound b).calls = s.calls := rfl

/-! ### setDisp -/

@[simp] theorem State.setDisp_config (d : Display) : (s.setDisp d).config = s.config := rfl
@[simp] theorem State.setDisp_mem (d : Display) : (s.setDisp d).mem = s.mem := rfl
@[simp] theorem State.setDisp_v (d : Display) : (s.setDisp d).v = s.v := rfl
@[simp] theorem State.setDisp_index (d : Display) : (s.setDisp d).index = s.index := rfl
@[simp] theorem State.setDisp_pc (d : Display) : (s.setDisp d).pc = s.pc := rfl
@[simp] theorem State.setDisp_stack (d : Display) : (s.setDisp d).stack = s.stack := rfl
@[simp] theorem State.setDisp_sp (d : Display) : (s.setDisp d).sp = s.sp := rfl
@[simp] theorem State.setDisp_dt (d : Display) : (s.setDisp d).dt = s.dt := rfl
@[simp] theorem State.setDisp_st (d : Display) : (s.setDisp d).st = s.st := rfl
@[simp] theorem State.setDisp_keys (d : Display) : (s.setDisp d).keys = s.keys := rfl
@[simp] theorem State.setDisp_disp (d : Display) : (s.setDisp d).disp = d := rfl
@[simp] theorem State.setDisp_faulted (d : Display) : (s.setDisp d).faulted = s.faulted := rfl
@[simp] theorem State.setDisp_loadable (d : Display) : (s.setDisp d).loadable = s.loadable := rfl
@[simp] theorem State.setDisp_draws (d : Display) : (s.setDisp d).draws = s.draws := rfl
@[simp] theorem State.setDisp_calls (d : Display) : (s.setDisp d).calls = s.calls := rfl

/-! ### setKey -/

@[simp] theorem State.setKey_config (k : Fin 16) (b : Bool) : (s.setKey k b).config = s.config := rfl
@[simp] theorem State.setKey_mem (k : Fin 16) (b : Bool) : (s.setKey k b).mem = s.mem := rfl
@[simp] theorem State.setKey_v (k : Fin 16) (b : Bool) : (s.setKey k b).v = s.v := rfl
@[simp] theorem State.setKey_index (k : Fin 16) (b : Bool) : (s.setKey k b).index = s.index := rfl
@[simp] theorem State.setKey_pc (k : Fin 16) (b : Bool) : (s.setKey k b).pc = s.pc := rfl
@[simp] theorem State.setKey_stack (k : Fin 16) (b : Bool) : (s.setKey k b).stack = s.stack := rfl
@[simp] theorem State.setKey_sp (k : Fin 16) (b : Bool) : (s.setKey k b).sp = s.sp := rfl
@[simp] theorem State.setKey_dt (k : Fin 16) (b : Bool) : (s.setKey k b).dt = s.dt := rfl
@[simp] theorem State.setKey_st (k : Fin 16) (b : Bool) : (s.setKey k b).st = s.st := rfl
@[simp] theorem State.setKey_keys (k : Fin 16) (b : Bool) : (s.setKey k b).keys = s.keys.set k b := rfl
@[simp] theorem State.setKey_disp (k : Fin 16) (b : Bool) : (s.setKey k b).disp = s.disp := rfl
@[simp] theorem State.setKey_faulted (k : Fin 16) (b : Bool) : (s.setKey k b).faulted = s.faulted := rfl
@[simp] theorem State.setKey_loadable (k : Fin 16) (b : Bool) : (s.setKey k b).loadable = s.loadable := rfl
@[simp] theorem State.setKey_draws (k : Fin 16) (b : Bool) : (s.setKey k b).draws = s.draws := rfl
@[simp] theorem State.setKey_calls (k : Fin 16) (b : Bool) : (s.setKey k b).calls = s.calls := rfl

/-! ### tickEntry -/

@[simp] theorem tickEntry_config : (tickEntry s).config = s.config := rfl
@[simp] theorem tickEntry_mem : (tickEntry s).mem = s.mem := rfl
@[simp] theorem tickEntry_v : (tickEntry s).v = s.v := rfl
@[simp] theorem tickEntry_index : (tickEntry s).index = s.index := rfl
@[simp] theorem tickEntry_pc : (tickEntry s).pc = pcOf s.config (s.pc + 2) := rfl
@[simp] theorem tickEntry_stack : (tickEntry s).stack = s.stack := rfl
@[simp] theorem tickEntry_sp : (tickEntry s).sp = s.sp := rfl
@[simp] theorem tickEntry_dt : (tickEntry s).dt = s.dt := rfl
@[simp] theorem tickEntry_st : (tickEntry s).st = s.st := rfl
@[simp] theorem tickEntry_keys : (tickEntry s).keys = s.keys := rfl
@[simp] theorem tickEntry_disp : (tickEntry s).disp = s.disp := rfl
@[simp] theorem tickEntry_faulted : (tickEntry s).faulted = s.faulted := rfl
@[simp] theorem tickEntry_loadable : (tickEntry s).loadable = false := rfl
@[simp] theorem tickEntry_draws : (tickEntry s).draws = s.draws := rfl
@[simp] theorem tickEntry_calls : (tickEntry s).calls = s.calls := rfl

/-! ### popCall -/

@[simp] theorem popCall_config : (popCall s).config = s.config := rfl
@[simp] theorem popCall_mem : (popCall s).mem = s.mem := rfl
@[simp] theorem popCall_v : (popCall s).v = s.v := rfl
@[simp] theorem popCall_index : (popCall s).index = s.index := rfl
@[simp] theorem popCall_pc : (popCall s).pc = s.pc := rfl
@[simp] theorem popCall_stack : (popCall s).stack = s.stack := rfl
@[simp] theorem popCall_sp : (popCall s).sp = s.sp := rfl
@[simp] theorem popCall_dt : (popCall s).dt = s.dt := rfl
@[simp] theorem popCall_st : (popCall s).st = s.st := rfl
@[simp] theorem popCall_keys : (popCall s).keys = s.keys := rfl
@[simp] theorem popCall_disp : (popCall s).disp = s.disp := rfl
@[simp] theorem popCall_faulted : (popCall s).faulted = s.faulted := rfl
@[simp] theorem popCall_loadable : (popCall s).loadable = s.loadable := rfl
@[simp] theorem popCall_draws : (popCall s).draws = s.draws := rfl
@[simp] theorem popCall_calls : (popCall s).calls = s.calls.tail := rfl

/-! ### Registers -/

theorem State.reg_def (x : RegIdx) : s.reg x = s.v[x] := rfl

@[simp] theorem State.reg_setReg_same (x : RegIdx) (b : Byte) : (s.setReg x b).reg x = b := by
  simp [State.reg]

theorem State.reg_setReg_ne {x r : RegIdx} (h : r ≠ x) (b : Byte) : (s.setReg x b).reg r = s.reg r := by
  have h' : x.val ≠ r.val := fun e => h (Fin.ext e.symm)
  simp [State.reg, h']

theorem State.reg_setReg (x r : RegIdx) (b : Byte) : (s.setReg x b).reg r = if r = x then b else s.reg r := by
  split
  · next h => rw [h, State.reg_setReg_same]
  · next h => exact State.reg_setReg_ne s h b

@[simp] theorem State.reg_setPc (a : Word) (r : RegIdx) : (s.setPc a).reg r = s.reg r := rfl
@[simp] theorem State.reg_setIndex (a : Word) (r : RegIdx) : (s.setIndex a).reg r = s.reg r := rfl
@[simp] theorem State.reg_setDelay (b : Byte) (r : RegIdx) : (s.setDelay b).reg r = s.reg r := rfl
@[simp] theorem State.reg_setSound (b : Byte) (r : RegIdx) : (s.setSound b).reg r = s.reg r := rfl
@[simp] theorem State.reg_setDisp (d : Display) (r : RegIdx) : (s.setDisp d).reg r = s.reg r := rfl
@[simp] theorem State.reg_setKey (k : Fin 16) (b : Bool) (r : RegIdx) : (s.setKey k b).reg r = s.reg r := rfl
@[simp] theorem reg_tickEntry (r : RegIdx) : (tickEntry s).reg r = s.reg r := rfl
@[simp] theorem reg_popCall (r : RegIdx) : (popCall s).reg r = s.reg r := rfl

/-- Only V differs after a register write. -/
theorem State.setReg_eq (x : RegIdx) (b : Byte) : s.setReg x b = { s with v := (s.setReg x b).v } := rfl

/-! ### Bytes of memory -/

@[simp] theorem State.byte_setReg (x : RegIdx) (b : Byte) (i : Nat) : (s.setReg x b).byte i = s.byte i := rfl
@[simp] theorem State.byte_setPc (a : Word) (i : Nat) : (s.setPc a).byte i = s.byte i := rfl
@[simp] theorem State.byte_setIndex (a : Word) (i : Nat) : (s.setIndex a).byte i = s.byte i := rfl
@[simp] theorem State.byte_setDelay (b : Byte) (i : Nat) : (s.setDelay b).byte i = s.byte i := rfl
@[simp] theorem State.byte_setSound (b : Byte) (i : Nat) : (s.setSound b).byte i = s.byte i := rfl
@[simp] theorem State.byte_setDisp (d : Display) (i : Nat) : (s.setDisp d).byte i = s.byte i := rfl
@[simp] theorem State.byte_setKey (k : Fin 16) (b : Bool) (i : Nat) : (s.setKey k b).byte i = s.byte i := rfl
@[simp] theorem byte_tickEntry (i : Nat) : (tickEntry s).byte i = s.byte i := rfl
@[simp] theorem byte_popCall (i : Nat) : (popCall s).byte i = s.byte i := rfl

/-! ### pc values (00_scope R7) -/

/-- The width of pc is 13 to 16 bits. -/
theorem pcWidth_bounds (w : Config.PcWidth) : 13 ≤ w.bits ∧ w.bits ≤ 16 := by cases w <;> decide

theorem pcOf_toNat (c : Config) (a : Word) : (pcOf c a).toNat = a.toNat % 2 ^ c.pcWidth.bits := by
  have := a.isLt
  have h := Nat.mod_le a.toNat (2 ^ c.pcWidth.bits)
  rw [pcOf, BitVec.toNat_ofNat, Nat.mod_eq_of_lt (by omega)]

/-- A value that fits 13 bits fits pc, whatever its width: every value a run computes does (10_state R29). -/
theorem pcOf_of_lt {a : Word} (h : a.toNat < 2 ^ 13) (c : Config) : pcOf c a = a := by
  apply BitVec.eq_of_toNat_eq
  rw [pcOf_toNat, Nat.mod_eq_of_lt]
  exact Nat.lt_of_lt_of_le h (Nat.pow_le_pow_right (by decide) (pcWidth_bounds _).1)

/-- With the default width of 16 bits a write to pc keeps the whole target. -/
theorem pcOf_bits16 {c : Config} (h : c.pcWidth = .bits16) (a : Word) : pcOf c a = a := by
  apply BitVec.eq_of_toNat_eq
  rw [pcOf_toNat, h, Nat.mod_eq_of_lt]
  exact a.isLt

/-- A write to pc never enlarges the value. -/
theorem pcOf_le (c : Config) (a : Word) : (pcOf c a).toNat ≤ a.toNat := by
  rw [pcOf_toNat]; exact Nat.mod_le _ _

/-! ### setRegFlag and skipIf -/

@[simp] theorem State.reg_setRegFlag_VF (x : RegIdx) (b f : Byte) : (s.setRegFlag x b f).reg VF = f := by
  simp [State.setRegFlag]

theorem State.reg_setRegFlag_dest {x : RegIdx} (h : x ≠ VF) (b f : Byte) : (s.setRegFlag x b f).reg x = b := by
  rw [State.setRegFlag, State.reg_setReg_ne _ h, State.reg_setReg_same]

theorem State.reg_setRegFlag_ne {x r : RegIdx} (h : r ≠ x) (hf : r ≠ VF) (b f : Byte) :
    (s.setRegFlag x b f).reg r = s.reg r := by
  rw [State.setRegFlag, State.reg_setReg_ne _ hf, State.reg_setReg_ne _ h]

/-- Only V differs after a result and its flag. -/
theorem State.setRegFlag_eq (x : RegIdx) (b f : Byte) :
    s.setRegFlag x b f = { s with v := (s.setRegFlag x b f).v } := rfl

/-- A skip changes pc only. -/
theorem State.skipIf_eq (c : Bool) : s.skipIf c = { s with pc := if c then pcOf s.config (s.pc + 2) else s.pc } := by
  cases c <;> rfl

end Sys2Proof.Machine
end

