-- ==== Sys2Proof/Laws/Memory.lean ====
section
/-! SUPPORT. The laws of memory: what a read gives after a write, that every operation keeps the canonical form, and one
specification lemma for each shared memory operation (memRead, memWrite, memWriteList, memReadList, fetch, loadRegsFrom). -/

namespace Sys2Proof.Machine

variable {c : Config}

/-! ## get and set -/

theorem Memory.wfFrom_mono {lo lo' : Nat} (h : lo' ≤ lo) : ∀ {m : Memory}, Memory.wfFrom c lo m = true → Memory.wfFrom c lo' m = true
  | [], _ => rfl
  | (a, x) :: rest, hm => by
    simp only [Memory.wfFrom, Bool.and_eq_true, decide_eq_true_eq] at hm ⊢
    exact ⟨⟨⟨by omega, hm.1.1.2⟩, hm.1.2⟩, hm.2⟩

/-- Below the bound of a canonical memory nothing is listed. -/
theorem Memory.get_of_lt {lo a : Nat} (h : a < lo) : ∀ {m : Memory}, Memory.wfFrom c lo m = true → Memory.get c m a = Memory.background c a
  | [], _ => rfl
  | (b, x) :: rest, hm => by
    simp only [Memory.wfFrom, Bool.and_eq_true, decide_eq_true_eq] at hm
    rw [Memory.get, if_neg (by omega), if_neg (by omega)]

theorem Memory.get_cons_same {a lo : Nat} (h : a < lo) {m : Memory} (hm : Memory.wfFrom c lo m = true) (x : Byte) :
    Memory.get c (Memory.cons c a x m) a = x := by
  unfold Memory.cons
  split
  · next hx => rw [Memory.get_of_lt h hm, hx]
  · simp [Memory.get]

theorem Memory.get_cons_ne {a a' lo : Nat} (h : a < lo) {m : Memory} (hm : Memory.wfFrom c lo m = true) (x : Byte) (hne : a' ≠ a) :
    Memory.get c (Memory.cons c a x m) a' = Memory.get c m a' := by
  unfold Memory.cons
  split
  · rfl
  · by_cases ha : a < a'
    · simp [Memory.get, ha]
    · rw [Memory.get, if_neg ha, if_neg (fun e => hne e.symm), Memory.get_of_lt (by omega) hm]

theorem Memory.wfFrom_cons {lo a : Nat} (hlo : lo ≤ a) (ha : a < Config.memSize) (x : Byte) {m : Memory}
    (hm : Memory.wfFrom c (a + 1) m = true) : Memory.wfFrom c lo (Memory.cons c a x m) = true := by
  unfold Memory.cons
  split
  · exact Memory.wfFrom_mono (by omega) hm
  · next hx => simp [Memory.wfFrom, hlo, ha, hx, hm]

/-- A write inside the address space keeps the canonical form. -/
theorem Memory.wfFrom_set {a : Nat} (ha : a < Config.memSize) (x : Byte) :
    ∀ {lo : Nat} {m : Memory}, lo ≤ a → Memory.wfFrom c lo m = true → Memory.wfFrom c lo (Memory.set c m a x) = true
  | lo, [], hlo, _ => Memory.wfFrom_cons hlo ha x rfl
  | lo, (b, y) :: rest, hlo, hm => by
    have hm' := hm
    simp only [Memory.wfFrom, Bool.and_eq_true, decide_eq_true_eq] at hm'
    obtain ⟨⟨⟨hb, hbs⟩, hy⟩, hr⟩ := hm'
    unfold Memory.set
    split
    · next hlt =>
      simp [Memory.wfFrom, hb, hbs, hy, Memory.wfFrom_set ha x (by omega : b + 1 ≤ a) hr]
    · split
      · next heq => subst heq; exact Memory.wfFrom_cons hlo ha x hr
      · refine Memory.wfFrom_cons hlo ha x ?_
        simp only [Memory.wfFrom, Bool.and_eq_true, decide_eq_true_eq]
        exact ⟨⟨⟨by omega, hbs⟩, hy⟩, hr⟩

/-- Every memory write keeps the canonical form. -/
theorem Memory.wf_set {m : Memory} (hm : Memory.wf c m = true) {a : Nat} (ha : a < Config.memSize) (x : Byte) :
    Memory.wf c (Memory.set c m a x) = true := Memory.wfFrom_set ha x (Nat.zero_le a) hm

theorem Memory.get_setFrom (a : Nat) (x : Byte) (a' : Nat) :
    ∀ {lo : Nat} {m : Memory}, Memory.wfFrom c lo m = true →
      Memory.get c (Memory.set c m a x) a' = if a' = a then x else Memory.get c m a'
  | _, [], _ => by
    have h0 : Memory.wfFrom c (a + 1) [] = true := rfl
    split
    · next h => rw [h]; exact Memory.get_cons_same (Nat.lt_succ_self a) h0 x
    · next h => exact Memory.get_cons_ne (Nat.lt_succ_self a) h0 x h
  | lo, (b, y) :: rest, hm => by
    have hm' := hm
    simp only [Memory.wfFrom, Bool.and_eq_true, decide_eq_true_eq] at hm'
    obtain ⟨⟨⟨hb, hbs⟩, hy⟩, hr⟩ := hm'
    unfold Memory.set
    split
    · next hlt =>
      simp only [Memory.get]
      split
      · exact Memory.get_setFrom a x a' hr
      · have : a' ≠ a := by omega
        simp [this]
    · next hnlt =>
      split
      · next heq =>
        subst heq
        split
        · next h => rw [h]; exact Memory.get_cons_same (Nat.lt_succ_self b) hr x
        · next h =>
          rw [Memory.get_cons_ne (Nat.lt_succ_self b) hr x h]
          simp only [Memory.get]
          split
          · rfl
          · rw [if_neg (fun e => h e.symm), Memory.get_of_lt (by omega) hr]
      · next hne =>
        have hw : Memory.wfFrom c (a + 1) ((b, y) :: rest) = true := by
          simp only [Memory.wfFrom, Bool.and_eq_true, decide_eq_true_eq]
          exact ⟨⟨⟨by omega, hbs⟩, hy⟩, hr⟩
        split
        · next h => rw [h]; exact Memory.get_cons_same (Nat.lt_succ_self a) hw x
        · next h => exact Memory.get_cons_ne (Nat.lt_succ_self a) hw x h

/-- A read after a write: the written byte at that address, every other byte as before. -/
theorem Memory.get_set {m : Memory} (hm : Memory.wf c m = true) (a : Nat) (x : Byte) (a' : Nat) :
    Memory.get c (Memory.set c m a x) a' = if a' = a then x else Memory.get c m a' := Memory.get_setFrom a x a' hm

/-- Reset memory reads as the glyph set and 0. -/
@[simp] theorem Memory.get_nil (a : Nat) : Memory.get c [] a = Memory.background c a := rfl

/-! ## Bytes of a state -/

/-- Equal memories under one configuration read alike. -/
theorem State.byte_congr {s t : State} (hc : t.config = s.config) (hm : t.mem = s.mem) (a : Nat) : t.byte a = s.byte a := by
  rw [State.byte, State.byte, hc, hm]

/-- A byte after a write of one byte. -/
theorem State.byte_set {s : State} (hm : s.MemWf) (a : Nat) (x : Byte) (a' : Nat) :
    ({ s with mem := Memory.set s.config s.mem a x } : State).byte a' = if a' = a then x else s.byte a' := Memory.get_set hm a x a'

/-! ## Single accesses -/

theorem memRead_ok {addr : Nat} (h : addr < Config.memSize) (s : State) : memRead addr s = .ok (s.byte addr) :=
  if_pos h

theorem memRead_error {addr : Nat} (h : ¬ addr < Config.memSize) (s : State) :
    memRead addr s = .error (.memoryOutOfBounds addr) := if_neg h

theorem memWrite_ok {addr : Nat} (h : addr < Config.memSize) (x : Byte) (s : State) :
    memWrite addr x s = .ok { s with mem := Memory.set s.config s.mem addr x } := if_pos h

theorem memWrite_error {addr : Nat} (h : ¬ addr < Config.memSize) (x : Byte) (s : State) :
    memWrite addr x s = .error (.memoryOutOfBounds addr) := if_neg h

/-! ## Writes at ascending addresses -/

/-- Inside the address space a list of writes succeeds, changes memory only, keeps the canonical form, and each address reads
as the byte written there or as before. -/
theorem memWriteList_ok : ∀ (xs : List Byte) (addr : Nat) (s : State), s.MemWf →
    addr + xs.length ≤ Config.memSize →
    ∃ m, memWriteList addr xs s = .ok { s with mem := m } ∧ Memory.wf s.config m = true ∧
      ∀ a, Memory.get s.config m a = if addr ≤ a then xs.getD (a - addr) (s.byte a) else s.byte a
  | [], addr, s, hm, _ => ⟨s.mem, rfl, hm, fun a => by simp [State.byte]⟩
  | x :: xs, addr, s, hm, hlen => by
    simp only [List.length_cons] at hlen
    have ha : addr < Config.memSize := by omega
    obtain ⟨m, he, hw, hg⟩ := memWriteList_ok xs (addr + 1) { s with mem := Memory.set s.config s.mem addr x }
      (Memory.wf_set hm ha x) (by omega)
    refine ⟨m, ?_, hw, fun a => ?_⟩
    · rw [memWriteList, memWrite_ok ha]; exact he
    · rw [show Memory.get s.config m a = _ from hg a]
      simp only [State.byte, Memory.get_set hm]
      by_cases h1 : addr + 1 ≤ a
      · have h2 : a - addr = (a - (addr + 1)) + 1 := by omega
        have h3 : a ≠ addr := by omega
        have h4 : addr ≤ a := by omega
        rw [if_pos h1, if_pos h4, h2, List.getD_cons_succ, if_neg h3]
      · by_cases h2 : a = addr
        · subst h2; simp
        · have h4 : ¬ addr ≤ a := by omega
          rw [if_neg h1, if_neg h4, if_neg h2]

/-- Past the end of the address space a list of writes reports the lowest failing address. -/
theorem memWriteList_error : ∀ (xs : List Byte) (addr : Nat) (s : State), xs ≠ [] → Config.memSize < addr + xs.length →
    memWriteList addr xs s = .error (.memoryOutOfBounds (max addr Config.memSize))
  | [], _, _, h, _ => absurd rfl h
  | x :: xs, addr, s, _, hlen => by
    simp only [List.length_cons] at hlen
    by_cases ha : addr < Config.memSize
    · rw [memWriteList, memWrite_ok ha]
      have hx : xs ≠ [] := by rintro rfl; simp at hlen; omega
      show memWriteList (addr + 1) xs _ = _
      rw [memWriteList_error xs (addr + 1) _ hx (by omega)]
      congr 2; omega
    · rw [memWriteList, memWrite_error ha]
      show Except.error _ = _
      congr 2; omega

/-- A list of writes that succeeds changes memory only, stays in the address space and keeps the canonical form. -/
theorem memWriteList_inv : ∀ {xs : List Byte} {addr : Nat} {s t : State}, memWriteList addr xs s = .ok t →
    t = { s with mem := t.mem } ∧ (xs = [] ∨ addr + xs.length ≤ Config.memSize) ∧
      (s.MemWf → t.MemWf)
  | [], addr, s, t, h => by
    cases h; exact ⟨rfl, .inl rfl, id⟩
  | x :: xs, addr, s, t, h => by
    by_cases ha : addr < Config.memSize
    · rw [memWriteList, memWrite_ok ha] at h
      obtain ⟨h1, h2, h3⟩ := memWriteList_inv (xs := xs) h
      refine ⟨h1, .inr ?_, fun hw => h3 (Memory.wf_set hw ha x)⟩
      rcases h2 with h2 | h2
      · simp [h2]; omega
      · simp only [List.length_cons]; omega
    · rw [memWriteList, memWrite_error ha] at h; cases h

/-! ## Reads at ascending addresses -/

theorem memReadList_ok : ∀ (n addr : Nat) (s : State), (n = 0 ∨ addr + n ≤ Config.memSize) →
    memReadList addr n s = .ok ((List.range n).map fun k => s.byte (addr + k))
  | 0, _, _, _ => rfl
  | n + 1, addr, s, h => by
    have ha : addr < Config.memSize := by omega
    rw [memReadList, memRead_ok ha]
    simp only
    rw [memReadList_ok n (addr + 1) s (by omega), List.range_succ_eq_map]
    simp [Function.comp_def, Nat.add_assoc, Nat.add_comm 1]

theorem memReadList_error : ∀ (n addr : Nat) (s : State), n ≠ 0 → Config.memSize < addr + n →
    memReadList addr n s = .error (.memoryOutOfBounds (max addr Config.memSize))
  | 0, _, _, h, _ => absurd rfl h
  | n + 1, addr, s, _, h => by
    by_cases ha : addr < Config.memSize
    · rw [memReadList, memRead_ok ha]
      simp only
      rw [memReadList_error n (addr + 1) s (by omega) (by omega)]
      simp only
      congr 2; omega
    · rw [memReadList, memRead_error ha]
      simp only
      congr 2; omega

theorem memReadList_inv {n addr : Nat} {s : State} {xs : List Byte} (h : memReadList addr n s = .ok xs) :
    (n = 0 ∨ addr + n ≤ Config.memSize) ∧ xs = (List.range n).map fun k => s.byte (addr + k) := by
  by_cases hb : n = 0 ∨ addr + n ≤ Config.memSize
  · rw [memReadList_ok n addr s hb] at h; cases h; exact ⟨hb, rfl⟩
  · rw [memReadList_error n addr s (by omega) (by omega)] at h; cases h

/-! ## Fetch -/

theorem fetch_ok {s : State} (h : s.pc.toNat + 1 < Config.memSize) :
    fetch s = .ok (wordOfBytes (s.byte s.pc.toNat) (s.byte (s.pc.toNat + 1))) := by
  rw [fetch, memRead_ok (by omega)]
  simp only
  rw [memRead_ok h]

theorem fetch_error {s : State} (h : ¬ s.pc.toNat + 1 < Config.memSize) :
    fetch s = .error (.memoryOutOfBounds (max s.pc.toNat Config.memSize)) := by
  by_cases ha : s.pc.toNat < Config.memSize
  · rw [fetch, memRead_ok ha]
    simp only
    rw [memRead_error h]
    simp only
    congr 2; omega
  · rw [fetch, memRead_error ha]
    simp only
    congr 2; omega

theorem fetch_inv {s : State} {w : Word} (h : fetch s = .ok w) :
    s.pc.toNat + 1 < Config.memSize ∧ w = wordOfBytes (s.byte s.pc.toNat) (s.byte (s.pc.toNat + 1)) := by
  by_cases hb : s.pc.toNat + 1 < Config.memSize
  · rw [fetch_ok hb] at h; cases h; exact ⟨hb, rfl⟩
  · rw [fetch_error hb] at h; cases h

end Sys2Proof.Machine
end

