-- ==== Sys2Proof/Laws/Display.lean ====
section
/-! SUPPORT. The frame buffer and the sprite compositor: what a cell is after a write, and one specification lemma for each of
drawBit, drawRow and drawRows. Within one sprite no cell is touched twice (46_display R202), so each cell's new value is its
old value inverted where the sprite covers it. -/

namespace Sys2Proof.Machine

/-! ## Cells -/

theorem pixel_setPixel (d : Display) (r r' : Fin 32) (c c' : Fin 64) (b : Bool) :
    pixel (setPixel d r c b) r' c' = if r' = r ∧ c' = c then b else pixel d r' c' := by
  unfold pixel setPixel
  by_cases hr : r' = r
  · subst hr
    by_cases hc : c' = c
    · subst hc; simp
    · have : c.val ≠ c'.val := fun e => hc (Fin.ext e.symm)
      simp [hc, this]
  · have : r.val ≠ r'.val := fun e => hr (Fin.ext e.symm)
    simp [hr, this]

@[simp] theorem pixel_clearDisplay (r : Fin 32) (c : Fin 64) : pixel clearDisplay r c = false := by
  simp [pixel, clearDisplay]

/-- Displays with the same cells are equal. -/
theorem display_ext {d d' : Display} (h : ∀ r c, pixel d r c = pixel d' r c) : d = d' := by
  apply Vector.ext
  intro i hi
  apply Vector.ext
  intro j hj
  exact h ⟨i, hi⟩ ⟨j, hj⟩

/-! ## One sprite row -/

/-- The cell (r, c) is where column `col` of sprite row `row` lands. -/
def landsAt (vx vy : Byte) (row col : Nat) (r : Fin 32) (c : Fin 64) : Bool :=
  decide ((vy.toNat + row) % 32 = r.val) && decide ((vx.toNat + col) % 64 = c.val)

theorem landsAt_iff {vx vy : Byte} {row col : Nat} {r : Fin 32} {c : Fin 64} :
    landsAt vx vy row col r c = true ↔ (vy.toNat + row) % 32 = r.val ∧ (vx.toNat + col) % 64 = c.val := by
  simp [landsAt]

theorem landsAt_iff_eq {vx vy : Byte} {row col : Nat} {r : Fin 32} {c : Fin 64} :
    landsAt vx vy row col r c = true ↔ r = Fin.ofNat 32 (vy.toNat + row) ∧ c = Fin.ofNat 64 (vx.toNat + col) := by
  simp only [landsAt_iff, Fin.ext_iff, Fin.val_ofNat]
  exact ⟨fun h => ⟨h.1.symm, h.2.symm⟩, fun h => ⟨h.1.symm, h.2.symm⟩⟩

theorem pixel_drawBit (vx vy : Byte) (row col : Nat) (p : Display × Bool) (r : Fin 32) (c : Fin 64) :
    pixel (drawBit vx vy row col p).1 r c = if landsAt vx vy row col r c then !pixel p.1 r c else pixel p.1 r c := by
  rw [drawBit, pixel_setPixel]
  by_cases h : landsAt vx vy row col r c = true
  · have h' := landsAt_iff_eq.mp h
    rw [if_pos h', if_pos h, h'.1, h'.2]
  · rw [if_neg h, if_neg (fun h' => h (landsAt_iff_eq.mpr h'))]

theorem collision_drawBit (vx vy : Byte) (row col : Nat) (p : Display × Bool) :
    (drawBit vx vy row col p).2 = true ↔ p.2 = true ∨ ∃ r c, landsAt vx vy row col r c = true ∧ pixel p.1 r c = true := by
  simp only [drawBit, Bool.or_eq_true]
  constructor
  · rintro (h | h)
    · exact .inl h
    · exact .inr ⟨_, _, landsAt_iff_eq.mpr ⟨rfl, rfl⟩, h⟩
  · rintro (h | ⟨r, c, ha, h⟩)
    · exact .inl h
    · obtain ⟨rfl, rfl⟩ := landsAt_iff_eq.mp ha
      exact .inr h

/-- Some of the columns `cols` of sprite row `row` has a set bit that lands on (r, c). -/
def RowCovers (vx vy : Byte) (row : Nat) (b : Byte) (cols : List Nat) (r : Fin 32) (c : Fin 64) : Prop :=
  ∃ col ∈ cols, spriteBit b col = true ∧ landsAt vx vy row col r c = true

/-- The fold of drawRow over distinct columns below 64: each covered cell is inverted once, and the collision flag tells whether
a covered cell was set before. -/
theorem drawCols_spec (vx vy : Byte) (row : Nat) (b : Byte) : ∀ (cols : List Nat) (p : Display × Bool),
    cols.Nodup → (∀ col ∈ cols, col < 64) →
    let q := cols.foldl (fun p col => if spriteBit b col then drawBit vx vy row col p else p) p
    (∀ r c, pixel q.1 r c = true ↔ (¬ RowCovers vx vy row b cols r c ∧ pixel p.1 r c = true ∨
      RowCovers vx vy row b cols r c ∧ pixel p.1 r c = false)) ∧
    (q.2 = true ↔ p.2 = true ∨ ∃ r c, RowCovers vx vy row b cols r c ∧ pixel p.1 r c = true)
  | [], p, _, _ => by simp [RowCovers]
  | col :: cols, p, hn, hlt => by
    obtain ⟨hnot, hn'⟩ := List.nodup_cons.mp hn
    have hcol := hlt col List.mem_cons_self
    have hlt' : ∀ c ∈ cols, c < 64 := fun c hc => hlt c (List.mem_cons_of_mem _ hc)
    intro q
    by_cases hb : spriteBit b col = true
    · have hq : q = cols.foldl (fun p col => if spriteBit b col then drawBit vx vy row col p else p)
          (drawBit vx vy row col p) := by simp [q, hb]
      obtain ⟨h1, h2⟩ := drawCols_spec vx vy row b cols (drawBit vx vy row col p) hn' hlt'
      rw [hq]
      have hdisj : ∀ r c, landsAt vx vy row col r c = true → ¬ RowCovers vx vy row b cols r c := by
        rintro r c ha ⟨col', hm, _, ha'⟩
        have := hlt' col' hm
        have := (landsAt_iff.mp ha).2
        have := (landsAt_iff.mp ha').2
        have : col = col' := by omega
        exact hnot (this ▸ hm)
      have hcov : ∀ r c, RowCovers vx vy row b (col :: cols) r c ↔
          landsAt vx vy row col r c = true ∨ RowCovers vx vy row b cols r c := by
        intro r c; simp [RowCovers, hb]
      refine ⟨fun r c => ?_, ?_⟩
      · rw [h1 r c, hcov, pixel_drawBit]
        by_cases ha : landsAt vx vy row col r c = true
        · simp [ha, hdisj r c ha]
        · simp [ha]
      · rw [h2, collision_drawBit]
        constructor
        · rintro ((h | ⟨r, c, ha, h⟩) | ⟨r, c, ha, h⟩)
          · exact .inl h
          · exact .inr ⟨r, c, (hcov r c).mpr (.inl ha), h⟩
          · refine .inr ⟨r, c, (hcov r c).mpr (.inr ha), ?_⟩
            rw [pixel_drawBit, if_neg (fun h' => hdisj r c h' ha)] at h
            exact h
        · rintro (h | ⟨r, c, ha, h⟩)
          · exact .inl (.inl h)
          · rcases (hcov r c).mp ha with ha | ha
            · exact .inl (.inr ⟨r, c, ha, h⟩)
            · refine .inr ⟨r, c, ha, ?_⟩
              rw [pixel_drawBit, if_neg (fun h' => hdisj r c h' ha)]
              exact h
    · have hq : q = cols.foldl (fun p col => if spriteBit b col then drawBit vx vy row col p else p) p := by
        simp [q, hb]
      obtain ⟨h1, h2⟩ := drawCols_spec vx vy row b cols p hn' hlt'
      rw [hq]
      have hcov : ∀ r c, RowCovers vx vy row b (col :: cols) r c ↔ RowCovers vx vy row b cols r c := by
        intro r c; simp [RowCovers, hb]
      simp only [hcov]
      exact ⟨h1, h2⟩

/-- One sprite row. -/
theorem drawRow_spec (vx vy : Byte) (row : Nat) (b : Byte) (p : Display × Bool) :
    (∀ r c, pixel (drawRow vx vy row b p).1 r c = true ↔ (¬ RowCovers vx vy row b (List.range 8) r c ∧ pixel p.1 r c = true ∨
      RowCovers vx vy row b (List.range 8) r c ∧ pixel p.1 r c = false)) ∧
    ((drawRow vx vy row b p).2 = true ↔
      p.2 = true ∨ ∃ r c, RowCovers vx vy row b (List.range 8) r c ∧ pixel p.1 r c = true) :=
  drawCols_spec vx vy row b (List.range 8) p List.nodup_range (fun col h => by
    have := List.mem_range.mp h
    omega)

/-! ## A whole sprite -/

/-- The sprite `bs`, whose first byte is row `row`, has a set bit that lands on (r, c). -/
def SpriteCovers (vx vy : Byte) (row : Nat) (bs : List Byte) (r : Fin 32) (c : Fin 64) : Prop :=
  ∃ k b, bs[k]? = some b ∧ RowCovers vx vy (row + k) b (List.range 8) r c

theorem spriteCovers_cons (vx vy : Byte) (row : Nat) (b : Byte) (bs : List Byte) (r : Fin 32) (c : Fin 64) :
    SpriteCovers vx vy row (b :: bs) r c ↔
      RowCovers vx vy row b (List.range 8) r c ∨ SpriteCovers vx vy (row + 1) bs r c := by
  constructor
  · rintro ⟨k, b', hk, hc⟩
    cases k with
    | zero => simp at hk; subst hk; exact .inl hc
    | succ k => exact .inr ⟨k, b', by simpa using hk, by rwa [Nat.add_assoc, Nat.add_comm 1]⟩
  · rintro (h | ⟨k, b', hk, hc⟩)
    · exact ⟨0, b, rfl, h⟩
    · exact ⟨k + 1, b', by simpa using hk, by rwa [Nat.add_assoc, Nat.add_comm 1] at hc⟩

/-- A sprite of at most 32 rows: each covered cell is inverted once, every other cell is unchanged, and the collision flag tells
whether a covered cell was set before the drawing (46_display R201, R202). -/
theorem drawRows_spec (vx vy : Byte) : ∀ (bs : List Byte) (row : Nat) (p : Display × Bool), bs.length ≤ 32 →
    (∀ r c, pixel (drawRows vx vy row bs p).1 r c = true ↔ (¬ SpriteCovers vx vy row bs r c ∧ pixel p.1 r c = true ∨
      SpriteCovers vx vy row bs r c ∧ pixel p.1 r c = false)) ∧
    ((drawRows vx vy row bs p).2 = true ↔ p.2 = true ∨ ∃ r c, SpriteCovers vx vy row bs r c ∧ pixel p.1 r c = true)
  | [], row, p, _ => by simp [drawRows, SpriteCovers]
  | b :: bs, row, p, hlen => by
    simp only [List.length_cons] at hlen
    obtain ⟨h1, h2⟩ := drawRow_spec vx vy row b p
    obtain ⟨h3, h4⟩ := drawRows_spec vx vy bs (row + 1) (drawRow vx vy row b p) (by omega)
    have hdisj : ∀ r c, RowCovers vx vy row b (List.range 8) r c → ¬ SpriteCovers vx vy (row + 1) bs r c := by
      rintro r c ⟨_, _, _, ha⟩ ⟨k, b', hk, _, _, _, ha'⟩
      have := (landsAt_iff.mp ha).1
      have := (landsAt_iff.mp ha').1
      have : k < bs.length := by
        by_contra hk'
        rw [List.getElem?_eq_none (by omega)] at hk
        cases hk
      omega
    have hkeep : ∀ r c, SpriteCovers vx vy (row + 1) bs r c →
        (pixel (drawRow vx vy row b p).1 r c = true ↔ pixel p.1 r c = true) := by
      intro r c hc
      have : ¬ RowCovers vx vy row b (List.range 8) r c := fun h => hdisj r c h hc
      rw [h1 r c]; simp only [this, not_false_eq_true, true_and, false_and, or_false]
    refine ⟨fun r c => ?_, ?_⟩
    · rw [drawRows, h3 r c, spriteCovers_cons]
      by_cases hs : SpriteCovers vx vy (row + 1) bs r c
      · have hr : ¬ RowCovers vx vy row b (List.range 8) r c := fun h => hdisj r c h hs
        have hk := hkeep r c hs
        simp only [hs, hr, not_true_eq_false, false_and, true_and, false_or, or_true]
        rw [← Bool.not_eq_true, ← Bool.not_eq_true, hk]
      · simp only [hs, not_false_eq_true, true_and, false_and, or_false, or_false]
        exact h1 r c
    · rw [drawRows, h4, h2]
      constructor
      · rintro ((h | ⟨r, c, hc, h⟩) | ⟨r, c, hc, h⟩)
        · exact .inl h
        · exact .inr ⟨r, c, (spriteCovers_cons ..).mpr (.inl hc), h⟩
        · exact .inr ⟨r, c, (spriteCovers_cons ..).mpr (.inr hc), (hkeep r c hc).mp h⟩
      · rintro (h | ⟨r, c, hc, h⟩)
        · exact .inl (.inl h)
        · rcases (spriteCovers_cons ..).mp hc with hc | hc
          · exact .inl (.inr ⟨r, c, hc, h⟩)
          · exact .inr ⟨r, c, hc, (hkeep r c hc).mpr h⟩

end Sys2Proof.Machine
end

