-- ==== Sys2Proof/Laws/Ops.lean ====
section
/-! SUPPORT. One specification lemma for each shared operation over the stack, the keypad latch, the flags and the operands; and
what it takes for an instruction's end to be a next state. -/

namespace Sys2Proof.Machine

/-! ## Ends -/

@[simp] theorem finish_ok (s : State) : finish (.ok s) = .next s := rfl

@[simp] theorem finish_error (e : Fault) : finish (.error e) = .fault e := rfl

theorem finish_eq_next {r : Except Fault State} {t : State} : finish r = .next t ↔ r = .ok t := by
  cases r <;> simp [finish, raise]

/-! ## Call stack (10_state R31) -/

theorem push_ok {s : State} (h : s.sp.val < 16) (a : Word) :
    s.push a = .ok { s with stack := s.stack.set s.sp.val a h, sp := ⟨s.sp.val + 1, by omega⟩ } := dif_pos h

theorem push_error {s : State} (h : ¬ s.sp.val < 16) (a : Word) : s.push a = .error (.stackOverflow s.fetchAddr) := dif_neg h

theorem popPc_ok {s : State} (h : 0 < s.sp.val) :
    s.popPc = .ok { s with pc := pcOf s.config s.stack[s.sp.val - 1], sp := ⟨s.sp.val - 1, by omega⟩ } := dif_pos h

theorem popPc_error {s : State} (h : ¬ 0 < s.sp.val) : s.popPc = .error (.stackUnderflow s.fetchAddr) := dif_neg h

/-! ## Keypad latch (10_state R35) -/

theorem keyIndex_ok {k : Nat} (h : k < 16) : keyIndex k = .ok ⟨k, h⟩ := dif_pos h

theorem keyIndex_error {k : Nat} (h : ¬ k < 16) : keyIndex k = .error (.invalidKeyIndex k) := dif_neg h

/-- An ascending scan in which a later match overwrites an earlier one finds nothing, or the last match. -/
theorem scan_spec (p : Fin 16 → Bool) (l : List (Fin 16)) (hl : l.Pairwise (· < ·)) :
    (l.foldl (fun found k => if p k then some k else found) none = none ∧ ∀ k ∈ l, p k = false) ∨
    ∃ k ∈ l, l.foldl (fun found k => if p k then some k else found) none = some k ∧ p k = true ∧
      ∀ j ∈ l, k < j → p j = false := by
  induction l using List.reverseRecOn with
  | nil => exact .inl ⟨rfl, by simp⟩
  | append_singleton l a ih =>
    rw [List.pairwise_append] at hl
    obtain ⟨hl, -, hlt⟩ := hl
    simp only [List.foldl_append, List.foldl_cons, List.foldl_nil, List.mem_append, List.mem_singleton]
    cases ha : p a with
    | true =>
      refine .inr ⟨a, .inr rfl, by simp, ha, ?_⟩
      rintro j (hj | rfl) hlt'
      · exact absurd (hlt j hj a (by simp)) (not_lt.mpr hlt'.le)
      · exact absurd hlt' (lt_irrefl _)
    | false =>
      rcases ih hl with ⟨he, hn⟩ | ⟨k, hk, he, hp, hn⟩
      · refine .inl ⟨by simpa using he, ?_⟩
        rintro k (hk | rfl)
        · exact hn k hk
        · exact ha
      · refine .inr ⟨k, .inl hk, by simpa using he, hp, ?_⟩
        rintro j (hj | rfl) hlt'
        · exact hn j hj hlt'
        · exact ha

theorem finRange_pairwise : (List.finRange 16).Pairwise (· < ·) := by decide

/-- The scan of Fx0A: no key is down, or it finds the highest key that is (45_keywait R190, R191). -/
theorem scanKeys_spec (s : State) :
    (s.scanKeys = none ∧ ∀ k : Fin 16, s.keys[k] = false) ∨
    ∃ k : Fin 16, s.scanKeys = some k ∧ s.keys[k] = true ∧ ∀ j : Fin 16, k < j → s.keys[j] = false := by
  rcases scan_spec (fun k => s.keys[k]) (List.finRange 16) finRange_pairwise with ⟨h, hn⟩ | ⟨k, -, h, hk, hn⟩
  · exact .inl ⟨h, fun k => hn k (List.mem_finRange k)⟩
  · exact .inr ⟨k, h, hk, fun j hj => hn j (List.mem_finRange j) hj⟩

theorem scanKeys_none {s : State} (h : ∀ k : Fin 16, s.keys[k] = false) : s.scanKeys = none := by
  rcases scanKeys_spec s with ⟨h', -⟩ | ⟨k, -, hk, -⟩
  · exact h'
  · rw [h k] at hk; cases hk

theorem scanKeys_some {s : State} {k : Fin 16} (hk : s.keys[k] = true) (h : ∀ j : Fin 16, k < j → s.keys[j] = false) :
    s.scanKeys = some k := by
  rcases scanKeys_spec s with ⟨-, hn⟩ | ⟨k', h', hk', hn⟩
  · rw [hn k] at hk; cases hk
  · rcases lt_trichotomy k k' with hlt | rfl | hlt
    · rw [h k' hlt] at hk'; cases hk'
    · exact h'
    · rw [hn k hlt] at hk; cases hk

/-! ## Operands and flags as numbers -/

@[simp] theorem zextAddr_toNat (nnn : Addr12) : (zextAddr nnn).toNat = nnn.toNat := by
  have := nnn.isLt
  simp [zextAddr]; omega

@[simp] theorem zextByte_toNat (b : Byte) : (zextByte b).toNat = b.toNat := by
  have := b.isLt
  simp [zextByte]; omega

theorem boolByte_toNat (p : Bool) : (boolByte p).toNat = if p then 1 else 0 := by cases p <;> rfl

theorem carryFlag_toNat (a b : Byte) : (carryFlag a b).toNat = if a.toNat + b.toNat ≥ 256 then 1 else 0 := by
  simp [carryFlag, boolByte_toNat]

theorem noBorrowFlag_toNat (a b : Byte) : (noBorrowFlag a b).toNat = if a.toNat ≥ b.toNat then 1 else 0 := by
  simp [noBorrowFlag, boolByte_toNat]

theorem lsbFlag_toNat (a : Byte) : (lsbFlag a).toNat = a.toNat % 2 := by
  simp [lsbFlag, BitVec.toNat_and, Nat.and_one_is_mod]

theorem msbFlag_toNat (a : Byte) : (msbFlag a).toNat = a.toNat / 128 := by
  have := a.isLt
  simp [msbFlag, BitVec.toNat_and, BitVec.toNat_ushiftRight, Nat.and_one_is_mod, Nat.shiftRight_eq_div_pow]; omega

theorem sum8_toNat (a b : Byte) : (sum8 a b).toNat = (a.toNat + b.toNat) % 256 := BitVec.toNat_add a b

theorem diff8_toNat (a b : Byte) : (diff8 a b).toNat = (256 + a.toNat - b.toNat) % 256 := by
  have := a.isLt
  have := b.isLt
  simp [diff8, BitVec.toNat_sub]; omega

theorem half8_toNat (a : Byte) : (half8 a).toNat = a.toNat / 2 := by
  simp [half8, BitVec.toNat_ushiftRight, Nat.shiftRight_eq_div_pow]

theorem twice8_toNat (a : Byte) : (twice8 a).toNat = a.toNat * 2 % 256 := by
  simp [twice8, BitVec.toNat_shiftLeft, Nat.shiftLeft_eq]

end Sys2Proof.Machine
end

