-- ==== Sys2Proof/Laws/Transfer.lean ====
section
/-! SUPPORT. What the bulk transfers and BCD are made of: the register list of a transfer, and one specification lemma for the
load loop. -/

namespace Sys2Proof.Machine

/-! ## The registers of a transfer -/

@[simp] theorem mem_regsUpTo {x i : RegIdx} : i ∈ regsUpTo x ↔ i ≤ x := by simp [regsUpTo]

/-- The registers of a transfer are 0, 1, …, x in this order. -/
theorem regsUpTo_vals : ∀ x : RegIdx, (regsUpTo x).map Fin.val = List.range' 0 (x.val + 1) := by decide

@[simp] theorem regsUpTo_length (x : RegIdx) : (regsUpTo x).length = x.val + 1 := by
  have h := congrArg List.length (regsUpTo_vals x)
  simpa using h

theorem regsUpTo_getElem? : ∀ x r : RegIdx, r ≤ x → (regsUpTo x)[r.val]? = some r := by decide

/-- The k-th byte stored is V[k]. -/
theorem storedBytes_getD (s : State) {x r : RegIdx} (h : r ≤ x) (d : Byte) :
    ((regsUpTo x).map s.reg).getD r.val d = s.reg r := by
  simp [List.getD_eq_getElem?_getD, regsUpTo_getElem? x r h]

theorem storedBytes_getD_of_lt (s : State) {x : RegIdx} {k : Nat} (h : x.val < k) (d : Byte) :
    ((regsUpTo x).map s.reg).getD k d = d := by
  rw [List.getD_eq_default]; simp; omega

/-! ## The load loop -/

/-- Inside the address space the loop succeeds, changes V only, and gives each listed register its byte. -/
theorem loadRegsFrom_ok (base : Nat) : ∀ (l : List RegIdx) (s : State), (∀ i ∈ l, base + i.val < Config.memSize) →
    ∃ t, loadRegsFrom base l s = .ok t ∧ t = { s with v := t.v } ∧
      ∀ r, t.reg r = if r ∈ l then s.byte (base + r.val) else s.reg r
  | [], s, _ => ⟨s, rfl, rfl, fun r => by simp⟩
  | i :: l, s, h => by
    obtain ⟨t, he, hs, hr⟩ := loadRegsFrom_ok base l (s.setReg i (s.byte (base + i.val)))
      (fun j hj => h j (List.mem_cons_of_mem _ hj))
    refine ⟨t, ?_, ?_, fun r => ?_⟩
    · rw [loadRegsFrom, memRead_ok (h i List.mem_cons_self)]; exact he
    · rw [hs]; rfl
    · rw [hr r, State.reg_setReg]
      by_cases h1 : r ∈ l
      · simp [h1]
      · by_cases h2 : r = i
        · simp [h2]
        · simp [h1, h2]

/-- Past the end of the address space the loop over consecutive registers reports the lowest failing address. -/
theorem loadRegsFrom_error (base : Nat) : ∀ (l : List RegIdx) (k n : Nat) (s : State), l.map Fin.val = List.range' k (n + 1) →
    Config.memSize ≤ base + k + n →
    loadRegsFrom base l s = .error (.memoryOutOfBounds (max (base + k) Config.memSize))
  | [], _, _, _, hl, _ => by simp [List.range'_succ] at hl
  | i :: l, k, n, s, hl, h => by
    rw [List.range'_succ, List.map_cons, List.cons.injEq] at hl
    obtain ⟨hi, hl⟩ := hl
    by_cases ha : base + i.val < Config.memSize
    · rw [loadRegsFrom, memRead_ok ha]
      cases n with
      | zero => omega
      | succ n =>
        show loadRegsFrom base l _ = _
        rw [loadRegsFrom_error base l (k + 1) n _ hl (by omega)]
        congr 2; omega
    · rw [loadRegsFrom, memRead_error ha]
      show Except.error _ = _
      congr 2; omega

/-- A load of V[0..x] that lies inside the address space. -/
theorem loadRegs_ok {base : Nat} {x : RegIdx} (h : base + x.val < Config.memSize) (s : State) :
    ∃ t, loadRegsFrom base (regsUpTo x) s = .ok t ∧ t = { s with v := t.v } ∧
      ∀ r, t.reg r = if r ≤ x then s.byte (base + r.val) else s.reg r := by
  obtain ⟨t, he, hs, hr⟩ := loadRegsFrom_ok base (regsUpTo x) s (fun i hi => by
    have : i.val ≤ x.val := mem_regsUpTo.mp hi
    omega)
  exact ⟨t, he, hs, fun r => by simpa using hr r⟩

/-- A load of V[0..x] that leaves the address space. -/
theorem loadRegs_error {base : Nat} {x : RegIdx} (h : ¬ base + x.val < Config.memSize) (s : State) :
    loadRegsFrom base (regsUpTo x) s = .error (.memoryOutOfBounds (max base Config.memSize)) := by
  simpa using loadRegsFrom_error base (regsUpTo x) 0 x.val s (regsUpTo_vals x) (by omega)

/-! ## BCD digits -/

@[simp] theorem bcdDigits_length (b : Byte) : (bcdDigits b).length = 3 := rfl

end Sys2Proof.Machine
end

