-- ==== Sys2Proof/Laws/Exec.lean ====
section
/-! SUPPORT. What is known when one of the meanings that can raise an error answers a next state: one inversion lemma for each,
so that a proof over all instructions does not unfold them. The other meanings answer `.next` by definition. -/

namespace Sys2Proof.Machine

theorem execCall_next {nnn : Addr12} {s t : State} (h : execCall nnn s = .next t) :
    ∃ hs : s.sp.val < 16, t = { s with
      pc := pcOf s.config (zextAddr nnn), stack := s.stack.set s.sp.val s.pc hs, sp := ⟨s.sp.val + 1, by omega⟩ } := by
  by_cases hs : s.sp.val < 16
  · rw [execCall, push_ok hs] at h
    cases h
    exact ⟨hs, rfl⟩
  · rw [execCall, push_error hs] at h
    cases h

theorem execRet_next {s t : State} (h : execRet s = .next t) :
    ∃ _ : 0 < s.sp.val, t = { s with pc := pcOf s.config s.stack[s.sp.val - 1], sp := ⟨s.sp.val - 1, by omega⟩ } := by
  by_cases hs : 0 < s.sp.val
  · rw [execRet, popPc_ok hs] at h
    cases h
    exact ⟨hs, rfl⟩
  · rw [execRet, popPc_error hs] at h
    cases h

theorem execSkipKey_next {x : RegIdx} {s t : State} (h : execSkipKey x s = .next t) :
    ∃ k : Fin 16, (s.reg x).toNat = k.val ∧ t = s.skipIf s.keys[k] := by
  by_cases hk : (s.reg x).toNat < 16
  · rw [execSkipKey, keyIndex_ok hk] at h
    cases h
    exact ⟨⟨_, hk⟩, rfl, rfl⟩
  · rw [execSkipKey, keyIndex_error hk] at h
    cases h

theorem execSkipNotKey_next {x : RegIdx} {s t : State} (h : execSkipNotKey x s = .next t) :
    ∃ k : Fin 16, (s.reg x).toNat = k.val ∧ t = s.skipIf (!s.keys[k]) := by
  by_cases hk : (s.reg x).toNat < 16
  · rw [execSkipNotKey, keyIndex_ok hk] at h
    cases h
    exact ⟨⟨_, hk⟩, rfl, rfl⟩
  · rw [execSkipNotKey, keyIndex_error hk] at h
    cases h

theorem execBcd_next {x : RegIdx} {s t : State} (h : execBcd x s = .next t) :
    memWriteList s.index.toNat (bcdDigits (s.reg x)) s = .ok t := finish_eq_next.mp h

theorem execStoreRegs_next {x : RegIdx} {s t : State} (h : execStoreRegs x s = .next t) :
    ∃ u, memWriteList s.index.toNat ((regsUpTo x).map s.reg) s = .ok u ∧ t = u.setIndex (advanceIndex s.index x) := by
  unfold execStoreRegs at h
  split at h
  · next u hu => cases h; exact ⟨u, hu, rfl⟩
  · cases h

theorem execLoadRegs_next {x : RegIdx} {s t : State} (h : execLoadRegs x s = .next t) :
    s.index.toNat + x.val < Config.memSize ∧ t = { s with v := t.v, index := advanceIndex s.index x } ∧
      ∀ r, t.reg r = if r ≤ x then s.byte (s.index.toNat + r.val) else s.reg r := by
  by_cases hb : s.index.toNat + x.val < Config.memSize
  · obtain ⟨u, he, hu, hr⟩ := loadRegs_ok hb s
    rw [execLoadRegs, he] at h
    cases h
    refine ⟨hb, ?_, hr⟩
    rw [hu]; rfl
  · rw [execLoadRegs, loadRegs_error hb] at h
    cases h

theorem execWaitKey_next {x : RegIdx} {s t : State} (h : execWaitKey x s = .next t) :
    ((∀ k : Fin 16, s.keys[k] = false) ∧ t = s.setPc (s.pc - 2)) ∨
    ∃ k : Fin 16, s.keys[k] = true ∧ (∀ j : Fin 16, k < j → s.keys[j] = false) ∧ t = s.setReg x (BitVec.ofNat 8 k.val) := by
  unfold execWaitKey at h
  rcases scanKeys_spec s with ⟨he, hn⟩ | ⟨k, he, hk, hn⟩
  · rw [he] at h
    cases h
    exact .inl ⟨hn, rfl⟩
  · rw [he] at h
    cases h
    exact .inr ⟨k, hk, hn, rfl⟩

theorem execDraw_next {x y : RegIdx} {n : BitVec 4} {s t : State} (h : execDraw x y n s = .next t) :
    (n.toNat = 0 ∨ s.index.toNat + n.toNat ≤ Config.memSize) ∧
      t = s.finishDraw (drawRows (s.reg x) (s.reg y) 0
        ((List.range n.toNat).map fun k => s.byte (s.index.toNat + k)) (s.disp, false)) := by
  unfold execDraw at h
  split at h
  · next sprite hs =>
    obtain ⟨hb, rfl⟩ := memReadList_inv hs
    cases h
    exact ⟨hb, rfl⟩
  · cases h

end Sys2Proof.Machine
end

