-- ==== Sys2Proof/Laws/Host.lean ====
section
/-! SUPPORT. The host's operations: when a call is refused, what each call is on an instance that is not faulted, what a step
is, that construct() leaves a canonical memory, and that a placed word is the word fetched. -/

namespace Sys2Proof.Machine

theorem hostCall_faulted {s : State} {e : Fault} (h : s.faulted = some e) (op : HostOp) :
    hostCall op s = .refused .instanceFaulted := by simp [hostCall, h]

theorem hostCall_tick {s : State} (h : s.faulted = none) : hostCall .tick s = tick s := by simp [hostCall, h]

theorem hostCall_tickTimers {s : State} (h : s.faulted = none) : hostCall .tickTimers s = tickTimers s := by
  simp [hostCall, h]

theorem hostCall_keyPress {s : State} (h : s.faulted = none) (k : Nat) : hostCall (.keyPress k) s = latchKey k true s := by
  simp [hostCall, h]

theorem hostCall_keyRelease {s : State} (h : s.faulted = none) (k : Nat) :
    hostCall (.keyRelease k) s = latchKey k false s := by simp [hostCall, h]

theorem hostCall_displaySnapshot {s : State} (h : s.faulted = none) : hostCall .displaySnapshot s = .next s := by
  simp [hostCall, h]

theorem hostCall_loadProgram {s : State} (h : s.faulted = none) (bytes : List Byte) :
    hostCall (.loadProgram bytes) s = loadProgram bytes s := by simp [hostCall, h]

/-- A step is the host's next call. -/
theorem step_eq (s : State) : step s = hostCall (nextCall s) (popCall s) := rfl

/-- What a tick does: it raises the fetch error, raises UnrecognizedOpcode, or executes the decoded instruction. -/
theorem tick_cases (s : State) :
    (∃ e, fetch s = .error e ∧ tick s = .fault e) ∨
    (∃ w u, fetch s = .ok w ∧ decode w = .unrecognized u ∧ tick s = .fault (.unrecognizedOpcode u)) ∨
    (∃ w i, fetch s = .ok w ∧ decode w = .instr i ∧ tick s = exec i (tickEntry s)) := by
  unfold tick
  cases hf : fetch s with
  | error e => exact .inl ⟨e, rfl, rfl⟩
  | ok w =>
    refine .inr ?_
    simp only [runWord]
    cases hd : decode w with
    | unrecognized u => exact .inl ⟨w, u, rfl, hd, rfl⟩
    | instr i => exact .inr ⟨w, i, rfl, hd, rfl⟩

/-- The next state of a tick comes from the instruction fetched. -/
theorem tick_next {s t : State} (h : tick s = .next t) :
    ∃ w i, fetch s = .ok w ∧ decode w = .instr i ∧ exec i (tickEntry s) = .next t := by
  rcases tick_cases s with ⟨e, -, h'⟩ | ⟨w, u, -, -, h'⟩ | ⟨w, i, hf, hd, h'⟩
  · rw [h] at h'; cases h'
  · rw [h] at h'; cases h'
  · exact ⟨w, i, hf, hd, h' ▸ h⟩

/-- Where a word was fetched, the instruction runs with pc advanced by 2, whatever the width of pc (30_encoding R70, 10_state R29). -/
theorem tickEntry_of_fetch {s : State} {w : Word} (h : fetch s = .ok w) :
    tickEntry s = { s with pc := s.pc + 2, loadable := false } := by
  have hp : s.pc.toNat + 1 < 4096 := (fetch_inv h).1
  have : pcOf s.config (s.pc + 2) = s.pc + 2 := by
    apply pcOf_of_lt
    rw [BitVec.toNat_add]
    simp; omega
  rw [tickEntry, State.setPc, this]

/-! ## construct() -/

theorem launchMemory_wf (c : Config) : ∀ cells : List Host.Cell, Memory.wf c (launchMemory c cells) = true
  | [] => rfl
  | (a, b) :: rest => by
    unfold launchMemory
    split
    · next h =>
      simp only [Bool.and_eq_true, decide_eq_true_eq] at h
      exact Memory.wf_set (launchMemory_wf c rest) h.1 b
    · exact launchMemory_wf c rest

/-- An address of the glyph set is never among the launch cells. -/
theorem launchMemory_glyph {c : Config} {a : Nat} (ha : inGlyphSet c a = true) :
    ∀ cells : List Host.Cell, Memory.get c (launchMemory c cells) a = Memory.background c a
  | [] => rfl
  | (a', b) :: rest => by
    unfold launchMemory
    split
    · next h =>
      simp only [Bool.and_eq_true, decide_eq_true_eq, Bool.not_eq_true'] at h
      rw [Memory.get_set (launchMemory_wf c rest), launchMemory_glyph ha rest, if_neg]
      rintro rfl
      rw [ha] at h; cases h.2
    · exact launchMemory_glyph ha rest

/-- A glyph byte that nothing has written reads as GLYPH_DATA gives it (20_memory R55). -/
theorem background_glyph (c : Config) (k : Fin 80) :
    Memory.background c (c.fontBase.toNat + k.val) = c.glyphData[k] := by
  simp [Memory.background]

/-- The state right after reset is a launch at the values the model names, every parameter at its default. -/
theorem reset_eq_construct : State.reset = construct Config.default LaunchValues.zero := rfl

/-! ## A word placed for the next tick -/

theorem nextCall_ticksNext (s : State) : nextCall { s with calls := ticksNext s.calls } = .tick := by
  unfold nextCall
  rcases s.calls with _ | ⟨op, rest⟩
  · rfl
  · cases op <;> rfl

/-- A word placed at pc is the word the next tick fetches. -/
theorem fetch_placeWord {s : State} (hm : s.MemWf) (h : s.pc.toNat + 1 < Config.memSize) (w : Word) :
    fetch (placeWord s w) = .ok w ∧ nextCall (placeWord s w) = .tick := by
  obtain ⟨m, he, -, hg⟩ := memWriteList_ok [w.extractLsb' 8 8, w.extractLsb' 0 8] s.pc.toNat s hm (by
    simp only [List.length_cons, List.length_nil]; omega)
  unfold placeWord
  rw [he]
  refine ⟨?_, nextCall_ticksNext _⟩
  rw [fetch_ok (by exact h)]
  simp only [State.byte, hg, le_refl, if_true, Nat.le_add_right, Nat.sub_self, Nat.add_sub_cancel_left]
  simpa using wordOfBytes_extract w

end Sys2Proof.Machine
end

