-- ==== Sys2Proof/Laws/PerInstr.lean ====
section
/-! SUPPORT. The family TableRow: the word of every well-formed instruction matches the instruction's row of the opcode map
(30_encoding R75), one lemma per constructor; and what each mask of the map keeps of a word. -/

namespace Sys2Proof.Laws.TableRow

/-- `(w & mask) == match` for the instruction's own word and row. -/
def Statement (i : Instr) : Prop := i.wf = true → rowMatches (opcodeRow i) (encode i) = true

theorem formatAddr_bit (c : BitVec 4) (nnn : Addr12) (i : Nat) :
    (formatAddr c nnn).getLsbD i = if i < 12 then nnn.getLsbD i else c.getLsbD (i - 12) := BitVec.getLsbD_append

theorem formatXKK_bit (c : BitVec 4) (x : RegIdx) (kk : Byte) (i : Nat) :
    (formatXKK c x kk).getLsbD i =
      if i < 8 then kk.getLsbD i else (c ++ BitVec.ofFin (w := 4) x).getLsbD (i - 8) := BitVec.getLsbD_append

theorem formatXYD_bit (c : BitVec 4) (x y : RegIdx) (d : BitVec 4) (i : Nat) :
    (formatXYD c x y d).getLsbD i =
      if i < 4 then d.getLsbD i else (c ++ BitVec.ofFin (w := 4) x ++ BitVec.ofFin (w := 4) y).getLsbD (i - 4) :=
  BitVec.getLsbD_append

/-- The mask F000 keeps c. -/
theorem and_F000 (w : Word) : w &&& 0xF000#16 = formatAddr (fieldC w) 0#12 := by
  apply BitVec.eq_of_getLsbD_eq
  intro i hi
  rw [BitVec.getLsbD_and, formatAddr_bit]
  simp only [fieldC, BitVec.getLsbD_extractLsb']
  interval_cases i <;> simp

/-- The mask F00F keeps c and d. -/
theorem and_F00F (w : Word) : w &&& 0xF00F#16 = formatXYD (fieldC w) 0 0 (fieldD w) := by
  apply BitVec.eq_of_getLsbD_eq
  intro i hi
  rw [BitVec.getLsbD_and, formatXYD_bit]
  simp only [fieldC, fieldD, BitVec.getLsbD_append, BitVec.getLsbD_extractLsb']
  interval_cases i <;> simp

/-- The mask F0FF keeps c and kk. -/
theorem and_F0FF (w : Word) : w &&& 0xF0FF#16 = formatXKK (fieldC w) 0 (fieldKK w) := by
  apply BitVec.eq_of_getLsbD_eq
  intro i hi
  rw [BitVec.getLsbD_and, formatXKK_bit]
  simp only [fieldC, fieldKK, BitVec.getLsbD_append, BitVec.getLsbD_extractLsb']
  interval_cases i <;> simp

theorem addr_row (c : BitVec 4) (nnn : Addr12) : rowMatches (0xF000#16, formatAddr c 0#12) (formatAddr c nnn) = true := by
  simp only [rowMatches, decide_eq_true_eq]
  rw [and_F000, fieldC_formatAddr]

theorem xkk_row (c : BitVec 4) (x : RegIdx) (kk : Byte) : rowMatches (0xF000#16, formatAddr c 0#12) (formatXKK c x kk) = true := by
  simp only [rowMatches, decide_eq_true_eq]
  rw [and_F000, fieldC_formatXKK]

theorem x_row (c : BitVec 4) (x : RegIdx) (kk : Byte) : rowMatches (0xF0FF#16, formatXKK c 0 kk) (formatXKK c x kk) = true := by
  simp only [rowMatches, decide_eq_true_eq]
  rw [and_F0FF, fieldC_formatXKK, fieldKK_formatXKK]

theorem xy_row (c : BitVec 4) (x y : RegIdx) (d : BitVec 4) :
    rowMatches (0xF00F#16, formatXYD c 0 0 d) (formatXYD c x y d) = true := by
  simp only [rowMatches, decide_eq_true_eq]
  rw [and_F00F, fieldC_formatXYD, fieldD_formatXYD]

theorem xyn_row (c : BitVec 4) (x y : RegIdx) (n : BitVec 4) :
    rowMatches (0xF000#16, formatAddr c 0#12) (formatXYD c x y n) = true := by
  simp only [rowMatches, decide_eq_true_eq]
  rw [and_F000, fieldC_formatXYD]

/-! ## One lemma per constructor -/

theorem jump (nnn : Addr12) : Statement (.jump nnn) := fun _ => addr_row _ nnn
theorem jumpOffset (nnn : Addr12) : Statement (.jumpOffset nnn) := fun _ => addr_row _ nnn
theorem call (nnn : Addr12) : Statement (.call nnn) := fun _ => addr_row _ nnn
theorem sysCall (nnn : Addr12) : Statement (.sysCall nnn) := fun _ => addr_row _ nnn
theorem setIndex (nnn : Addr12) : Statement (.setIndex nnn) := fun _ => addr_row _ nnn
theorem skipEqImm (x : RegIdx) (kk : Byte) : Statement (.skipEqImm x kk) := fun _ => xkk_row _ x kk
theorem skipNeImm (x : RegIdx) (kk : Byte) : Statement (.skipNeImm x kk) := fun _ => xkk_row _ x kk
theorem loadImm (x : RegIdx) (kk : Byte) : Statement (.loadImm x kk) := fun _ => xkk_row _ x kk
theorem addImm (x : RegIdx) (kk : Byte) : Statement (.addImm x kk) := fun _ => xkk_row _ x kk
theorem random (x : RegIdx) (kk : Byte) : Statement (.random x kk) := fun _ => xkk_row _ x kk
theorem skipEqReg (x y : RegIdx) : Statement (.skipEqReg x y) := fun _ => xy_row _ x y _
theorem skipNeReg (x y : RegIdx) : Statement (.skipNeReg x y) := fun _ => xy_row _ x y _
theorem copy (x y : RegIdx) : Statement (.copy x y) := fun _ => xy_row _ x y _
theorem or (x y : RegIdx) : Statement (.or x y) := fun _ => xy_row _ x y _
theorem and (x y : RegIdx) : Statement (.and x y) := fun _ => xy_row _ x y _
theorem xor (x y : RegIdx) : Statement (.xor x y) := fun _ => xy_row _ x y _
theorem add (x y : RegIdx) : Statement (.add x y) := fun _ => xy_row _ x y _
theorem sub (x y : RegIdx) : Statement (.sub x y) := fun _ => xy_row _ x y _
theorem subReverse (x y : RegIdx) : Statement (.subReverse x y) := fun _ => xy_row _ x y _
theorem shiftRight (x y : RegIdx) : Statement (.shiftRight x y) := fun _ => xy_row _ x y _
theorem shiftLeft (x y : RegIdx) : Statement (.shiftLeft x y) := fun _ => xy_row _ x y _
theorem skipKey (x : RegIdx) : Statement (.skipKey x) := fun _ => x_row _ x _
theorem skipNotKey (x : RegIdx) : Statement (.skipNotKey x) := fun _ => x_row _ x _
theorem addIndex (x : RegIdx) : Statement (.addIndex x) := fun _ => x_row _ x _
theorem glyphAddr (x : RegIdx) : Statement (.glyphAddr x) := fun _ => x_row _ x _
theorem getDelay (x : RegIdx) : Statement (.getDelay x) := fun _ => x_row _ x _
theorem setDelay (x : RegIdx) : Statement (.setDelay x) := fun _ => x_row _ x _
theorem setSound (x : RegIdx) : Statement (.setSound x) := fun _ => x_row _ x _
theorem bcd (x : RegIdx) : Statement (.bcd x) := fun _ => x_row _ x _
theorem storeRegs (x : RegIdx) : Statement (.storeRegs x) := fun _ => x_row _ x _
theorem loadRegs (x : RegIdx) : Statement (.loadRegs x) := fun _ => x_row _ x _
theorem waitKey (x : RegIdx) : Statement (.waitKey x) := fun _ => x_row _ x _
theorem draw (x y : RegIdx) (n : BitVec 4) : Statement (.draw x y n) := fun _ => xyn_row _ x y n
theorem ret : Statement .ret := fun _ => rfl
theorem clear : Statement .clear := fun _ => rfl

end Sys2Proof.Laws.TableRow
end

