-- ==== Sys2Proof/Tests/Slice0.lean ====
section
/-! SUPPORT. The model's own tests. Words are written out from the patterns of 30_encoding R75, and expected results are the
vectors of 95_test_vectors (their ids stand in the docstrings) or hand evaluation of a rule; after them one witness for each
statement that has hypotheses. -/

namespace Sys2Proof.Tests

open Sys2Proof Sys2Proof.Machine

/-! ## Helpers -/

/-- The outcome is a next state of which `p` holds. -/
def answers (o : Host.Outcome State Fault Refusal) (p : State → Bool) : Bool :=
  match o with
  | .next t => p t
  | .fault _ => false
  | .refused _ => false

/-- The outcome is the error `e`. -/
def raises (o : Host.Outcome State Fault Refusal) (e : Fault) : Bool :=
  match o with
  | .fault e' => decide (e' = e)
  | .next _ => false
  | .refused _ => false

/-- The outcome is the refusal `r`. -/
def refuses (o : Host.Outcome State Fault Refusal) (r : Refusal) : Bool :=
  match o with
  | .refused r' => decide (r' = r)
  | .next _ => false
  | .fault _ => false

/-- Another configuration of R7 that R56 admits: other addresses, another font, the shift source Vx, a pc of 13 bits. -/
def otherConfig : Config :=
  { progStart := 0x300#12, fontBase := 0x050#12, glyphData := Vector.replicate 80 0x11#8, shiftSource := .vx, pcWidth := .bits13 }

/-- A machine of that configuration after construct(). -/
def otherReset : State := construct otherConfig LaunchValues.zero

/-- A reset machine with some registers and I set. -/
def machine (regs : List (RegIdx × Byte)) (i : Nat) : State :=
  (regs.foldl (fun s p => s.setReg p.1 p.2) State.reset).setIndex (BitVec.ofNat 16 i)

/-- The same with bytes stored from an address on. -/
def storing (s : State) (a : Nat) (xs : List Byte) : State :=
  match memWriteList a xs s with
  | .ok t => t
  | .error _ => s

/-- The same with keys down. -/
def holding (s : State) (ks : List (Fin 16)) : State := ks.foldl (fun s k => s.setKey k true) s

/-- One step that runs the word `w`, placed at pc. -/
def run (w : Nat) (s : State) : Host.Outcome State Fault Refusal := step (s.withFetchWord 16 w)

/-- Three bytes of memory. -/
def bytes3 (s : State) (a : Nat) : List Byte := [s.byte a, s.byte (a + 1), s.byte (a + 2)]

/-- The columns set in one row. -/
def rowSet (s : State) (r : Fin 32) : List Nat := ((List.finRange 64).filter fun c => pixel s.disp r c).map Fin.val

/-! ## WellFormed (30_encoding R76) -/

theorem test_wf_refuses_cls_word : (Instr.sysCall 0x0E0#12).wf = false := by decide
theorem test_wf_refuses_ret_word : (Instr.sysCall 0x0EE#12).wf = false := by decide
theorem test_wf_accepts_sys : (Instr.sysCall 0x0E1#12).wf = true := by decide

/-! ## Decoding: one word for each constructor (R75) -/

theorem test_decode_control_flow :
    decode 0x1234#16 = .instr (.jump 0x234#12) ∧ decode 0xB300#16 = .instr (.jumpOffset 0x300#12) ∧
    decode 0x2ABC#16 = .instr (.call 0xABC#12) ∧ decode 0x00EE#16 = .instr .ret ∧
    decode 0x00E1#16 = .instr (.sysCall 0x0E1#12) ∧ decode 0x0000#16 = .instr (.sysCall 0x000#12) := by decide

theorem test_decode_skips :
    decode 0x3F01#16 = .instr (.skipEqImm 15 0x01#8) ∧ decode 0x432A#16 = .instr (.skipNeImm 3 0x2A#8) ∧
    decode 0x5120#16 = .instr (.skipEqReg 1 2) ∧ decode 0x9CD0#16 = .instr (.skipNeReg 12 13) ∧
    decode 0xE59E#16 = .instr (.skipKey 5) ∧ decode 0xE6A1#16 = .instr (.skipNotKey 6) := by decide

theorem test_decode_immediate :
    decode 0x6A42#16 = .instr (.loadImm 10 0x42#8) ∧ decode 0x7203#16 = .instr (.addImm 2 0x03#8) := by decide

theorem test_decode_alu :
    decode 0x8AB0#16 = .instr (.copy 10 11) ∧ decode 0x8011#16 = .instr (.or 0 1) ∧ decode 0x8122#16 = .instr (.and 1 2) ∧
    decode 0x8233#16 = .instr (.xor 2 3) ∧ decode 0x8F14#16 = .instr (.add 15 1) ∧ decode 0x8345#16 = .instr (.sub 3 4) ∧
    decode 0x8457#16 = .instr (.subReverse 4 5) ∧ decode 0x8566#16 = .instr (.shiftRight 5 6) ∧
    decode 0x867E#16 = .instr (.shiftLeft 6 7) := by decide

theorem test_decode_index_random_timers :
    decode 0xA2F0#16 = .instr (.setIndex 0x2F0#12) ∧ decode 0xF21E#16 = .instr (.addIndex 2) ∧
    decode 0xF429#16 = .instr (.glyphAddr 4) ∧ decode 0xC30F#16 = .instr (.random 3 0x0F#8) ∧
    decode 0xF507#16 = .instr (.getDelay 5) ∧ decode 0xF015#16 = .instr (.setDelay 0) ∧
    decode 0xF918#16 = .instr (.setSound 9) := by decide

theorem test_decode_memory_key_display :
    decode 0xF033#16 = .instr (.bcd 0) ∧ decode 0xF255#16 = .instr (.storeRegs 2) ∧ decode 0xFF65#16 = .instr (.loadRegs 15) ∧
    decode 0xF30A#16 = .instr (.waitKey 3) ∧ decode 0xD12C#16 = .instr (.draw 1 2 0xC#4) ∧
    decode 0x00E0#16 = .instr .clear := by decide

/-- One word of each unrecognized group (R78; DEC-5 to DEC-10). -/
theorem test_decode_unrecognized :
    decode 0x5121#16 = .unrecognized 0x5121#16 ∧ decode 0x8008#16 = .unrecognized 0x8008#16 ∧
    decode 0x800F#16 = .unrecognized 0x800F#16 ∧ decode 0x9AB1#16 = .unrecognized 0x9AB1#16 ∧
    decode 0xE19F#16 = .unrecognized 0xE19F#16 ∧ decode 0xF0FF#16 = .unrecognized 0xF0FF#16 := by decide

theorem test_decode_bytes :
    decodeBytes [0x12, 0x34, 0x56] = .instr (.jump 0x234#12) [0x56] ∧ decodeBytes [0x12] = .truncated [0x12] ∧
    decodeBytes [0xF0, 0xFF] = .unrecognized 0xF0FF#16 [] := by decide

theorem test_decode_table_word :
    decodeTableWord 16 0xD12C = some (.draw 1 2 0xC#4) ∧ decodeTableWord 16 0x8008 = none := by decide

theorem test_encode_draw : encode (.draw 1 2 0xC#4) = 0xD12C#16 ∧ encodeBytes (.call 0xABC#12) = [0x2A, 0xBC] := by decide

/-! ## Reset (10_state R40) and the glyph table (20_memory R55) -/

theorem test_reset_memory_wf : State.reset.MemWf := by decide

theorem test_reset_values :
    State.reset.pc = 0x200#16 ∧ State.reset.sp.val = 0 ∧ State.reset.keys.toList = List.replicate 16 false ∧
    State.reset.faulted = none := by decide

/-- Digit 0 at 0x000, digit 7 at 0x023, digit F at 0x04B, and the byte after the table. -/
theorem test_glyphs :
    bytes3 State.reset 0x000 = [0xF0, 0x90, 0x90] ∧ bytes3 State.reset 0x023 = [0xF0, 0x10, 0x20] ∧
    bytes3 State.reset 0x04E = [0x80, 0x80, 0x00] := by decide

/-- "The glyph region must lie wholly below PROG_START" (20_memory R56). -/
theorem test_glyphs_below_program : Config.default.Admissible := by decide

/-! ## Another configuration (00_scope R7) -/

theorem test_config_other_launch :
    otherConfig.Admissible ∧ otherReset.pc = 0x300#16 ∧ otherReset.byte 0x050 = 0x11#8 ∧ otherReset.byte 0x000 = 0x00#8 ∧
    otherReset.byte 0x0A0 = 0x00#8 := by decide

/-- Fx29 counts from FONT_BASE. -/
theorem test_config_glyphAddr :
    answers (run 0xF429 (otherReset.setReg 4 0x07)) (fun t => decide (t.index = 0x0073#16)) = true := by decide

/-- W3 with SHIFT_SOURCE = Vx: result and flag from V[0] = 05. -/
theorem test_config_shift_source :
    answers (run 0x8016 (otherReset.setReg 0 0x05)) (fun t => decide (t.reg 0 = 0x02 ∧ t.reg VF = 1)) = true := by decide

/-- A narrower pc holds the largest value a run computes (10_state R29). -/
theorem test_config_pc_width :
    answers (run 0xBFFF (otherReset.setReg 0 0xFF)) (fun t => decide (t.pc = 0x10FE#16)) = true := by decide

/-- The load limit is 4096 - PROG_START. -/
theorem test_config_load_limit :
    raises (hostCall (.loadProgram (List.replicate 3329 1#8)) otherReset) (.programTooLarge 3329) = true := by
  rw [hostCall_loadProgram rfl, loadProgram, List.length_replicate]
  decide

/-! ## Fetch (DEC-1 to DEC-4, DEC-7, DEC-11) -/

/-- DEC-2: an odd pc. -/
theorem test_fetch_odd_pc :
    answers (run 0x6207 (State.reset.setPc 0x201#16)) (fun t => decide (t.reg 2 = 0x07 ∧ t.pc = 0x203#16)) = true := by decide

/-- DEC-3. -/
theorem test_fetch_at_fff : raises (step (State.reset.setPc 0xFFF#16)) (.memoryOutOfBounds 0x1000) = true := by decide

/-- DEC-4. -/
theorem test_fetch_at_ffe :
    answers (run 0x6001 (State.reset.setPc 0xFFE#16)) (fun t => decide (t.reg 0 = 0x01 ∧ t.pc = 0x1000#16)) = true := by decide

/-- DEC-7. -/
theorem test_tick_unrecognized : raises (run 0x800F State.reset) (.unrecognizedOpcode 0x800F#16) = true := by decide

/-- The first tick of State.reset, where no program is loaded (assumption log 2, 12). -/
theorem test_tick_at_reset : raises (step State.reset) (.unsupportedSystemCall 0x0000#16) = true := by decide

/-! ## Control flow -/

/-- CF-JP-1. -/
theorem test_jump : answers (run 0x1234 State.reset) (fun t => decide (t.pc = 0x234#16)) = true := by decide

/-- CF-BJ-2. -/
theorem test_jumpOffset_above_memory :
    answers (run 0xBFFF (machine [(0, 0xFF)] 0)) (fun t => decide (t.pc = 0x10FE#16)) = true := by decide

/-- CF-BJ-3. -/
theorem test_jumpOffset_uses_v0 :
    answers (run 0xB250 (machine [(5, 0x40)] 0)) (fun t => decide (t.pc = 0x250#16)) = true := by decide

/-- CF-CALL-2. -/
theorem test_call_last_slot :
    answers (run 0x2300 { State.reset with sp := 15 })
      (fun t => decide (t.stack[15] = 0x202#16 ∧ t.sp.val = 16 ∧ t.pc = 0x300#16)) = true := by decide

/-- CF-CALL-3. -/
theorem test_call_overflow : raises (run 0x2300 { State.reset with sp := 16 }) (.stackOverflow 0x200#16) = true := by decide

/-- CF-RET-1, with another address in the slot. -/
theorem test_ret :
    answers (run 0x00EE { State.reset with sp := 1, stack := State.reset.stack.set 0 0x456#16 })
      (fun t => decide (t.sp.val = 0 ∧ t.pc = 0x456#16 ∧ t.stack[0] = 0x456#16)) = true := by decide

/-- CF-RET-2. -/
theorem test_ret_underflow : raises (run 0x00EE State.reset) (.stackUnderflow 0x200#16) = true := by decide

/-- CF-SE-1. -/
theorem test_skipEqImm : answers (run 0x332A (machine [(3, 0x2A)] 0)) (fun t => decide (t.pc = 0x204#16)) = true := by decide

/-- CF-SE-2. -/
theorem test_skipEqImm_not : answers (run 0x332B (machine [(3, 0x2A)] 0)) (fun t => decide (t.pc = 0x202#16)) = true := by
  decide

/-- CF-SNE-1. -/
theorem test_skipNeImm_not : answers (run 0x432A (machine [(3, 0x2A)] 0)) (fun t => decide (t.pc = 0x202#16)) = true := by
  decide

/-- CF-SNE-2. -/
theorem test_skipNeImm : answers (run 0x4300 (machine [(3, 0x2A)] 0)) (fun t => decide (t.pc = 0x204#16)) = true := by decide

/-- CF-SER-1. -/
theorem test_skipEqReg : answers (run 0x5120 (machine [(1, 7), (2, 7)] 0)) (fun t => decide (t.pc = 0x204#16)) = true := by
  decide

/-- CF-SER-2. -/
theorem test_skipEqReg_not : answers (run 0x5120 (machine [(1, 7), (2, 8)] 0)) (fun t => decide (t.pc = 0x202#16)) = true := by
  decide

/-- CF-SNER-1. -/
theorem test_skipNeReg : answers (run 0x9120 (machine [(1, 7), (2, 8)] 0)) (fun t => decide (t.pc = 0x204#16)) = true := by
  decide

/-- CF-SNER-2. -/
theorem test_skipNeReg_same : answers (run 0x9440 State.reset) (fun t => decide (t.pc = 0x202#16)) = true := by decide

/-- CF-SKP-1. -/
theorem test_skipKey :
    answers (run 0xE59E (holding (machine [(5, 0x0A)] 0) [10])) (fun t => decide (t.pc = 0x204#16)) = true := by decide

/-- CF-SKP-3. -/
theorem test_skipKey_invalid : raises (run 0xE59E (machine [(5, 0x10)] 0)) (.invalidKeyIndex 0x10) = true := by decide

/-- CF-SKNP-1. -/
theorem test_skipNotKey : answers (run 0xE5A1 (machine [(5, 0x0A)] 0)) (fun t => decide (t.pc = 0x204#16)) = true := by decide

/-- CF-SKNP-2. -/
theorem test_skipNotKey_down :
    answers (run 0xE5A1 (holding (machine [(5, 0x0A)] 0) [10])) (fun t => decide (t.pc = 0x202#16)) = true := by decide

/-- CF-SYS-1. -/
theorem test_sysCall : raises (run 0x0123 State.reset) (.unsupportedSystemCall 0x0123#16) = true := by decide

/-- DEC-12. -/
theorem test_sysCall_00E1 : raises (run 0x00E1 State.reset) (.unsupportedSystemCall 0x00E1#16) = true := by decide

/-! ## Immediate -/

/-- IMM-LD-2. -/
theorem test_loadImm : answers (run 0x6F07 State.reset) (fun t => decide (t.reg VF = 0x07)) = true := by decide

/-- IMM-ADD-1. -/
theorem test_addImm_wraps :
    answers (run 0x7203 (machine [(2, 0xFE), (15, 0x55)] 0)) (fun t => decide (t.reg 2 = 0x01 ∧ t.reg VF = 0x55)) = true := by
  decide

/-- IMM-ADD-4. -/
theorem test_addImm_vf : answers (run 0x7F01 (machine [(15, 0x01)] 0)) (fun t => decide (t.reg VF = 0x02)) = true := by decide

/-! ## ALU -/

/-- ALU-LD-1. -/
theorem test_copy :
    answers (run 0x8010 (machine [(1, 0x33), (15, 0x55)] 0)) (fun t => decide (t.reg 0 = 0x33 ∧ t.reg VF = 0x55)) = true := by
  decide

/-- ALU-OR-1. -/
theorem test_or :
    answers (run 0x8011 (machine [(0, 0xF0), (1, 0x0F), (15, 0x55)] 0))
      (fun t => decide (t.reg 0 = 0xFF ∧ t.reg VF = 0x55)) = true := by decide

/-- ALU-VF-5. -/
theorem test_or_vf : answers (run 0x8F11 (machine [(1, 0x02), (15, 0x01)] 0)) (fun t => decide (t.reg VF = 0x03)) = true := by
  decide

/-- ALU-AND-1. -/
theorem test_and :
    answers (run 0x8012 (machine [(0, 0xF3), (1, 0x3F), (15, 0x55)] 0))
      (fun t => decide (t.reg 0 = 0x33 ∧ t.reg VF = 0x55)) = true := by decide

/-- ALU-XOR-1. -/
theorem test_xor :
    answers (run 0x8013 (machine [(0, 0xFF), (1, 0x0F), (15, 0x55)] 0))
      (fun t => decide (t.reg 0 = 0xF0 ∧ t.reg VF = 0x55)) = true := by decide

/-- ALU-XOR-2. -/
theorem test_xor_same : answers (run 0x8003 (machine [(0, 0x5A)] 0)) (fun t => decide (t.reg 0 = 0x00)) = true := by decide

/-- ALU-ADD-6. -/
theorem test_add_carry :
    answers (run 0x8014 (machine [(0, 0xF0), (1, 0x20)] 0)) (fun t => decide (t.reg 0 = 0x10 ∧ t.reg VF = 1)) = true := by
  decide

/-- ALU-VF-1. -/
theorem test_add_vf : answers (run 0x8F14 (machine [(1, 0x20), (15, 0xF0)] 0)) (fun t => decide (t.reg VF = 1)) = true := by
  decide

/-- ALU-SUB-1. -/
theorem test_sub_borrow :
    answers (run 0x8015 (machine [(0, 0x10), (1, 0x20), (15, 1)] 0))
      (fun t => decide (t.reg 0 = 0xF0 ∧ t.reg VF = 0)) = true := by decide

/-- ALU-SUB-3: equal operands (C2). -/
theorem test_sub_equal :
    answers (run 0x8015 (machine [(0, 5), (1, 5)] 0)) (fun t => decide (t.reg 0 = 0 ∧ t.reg VF = 1)) = true := by decide

/-- ALU-SUBN-1. -/
theorem test_subReverse :
    answers (run 0x8017 (machine [(0, 0x10), (1, 0x20)] 0)) (fun t => decide (t.reg 0 = 0x10 ∧ t.reg VF = 1)) = true := by
  decide

/-- ALU-SUBN-2. -/
theorem test_subReverse_borrow :
    answers (run 0x8017 (machine [(0, 0x01), (1, 0x00), (15, 1)] 0))
      (fun t => decide (t.reg 0 = 0xFF ∧ t.reg VF = 0)) = true := by decide

/-- ALU-SHR-2: Vy is the source (D1). -/
theorem test_shiftRight :
    answers (run 0x8016 (machine [(0, 0x40), (1, 0xFF)] 0))
      (fun t => decide (t.reg 0 = 0x7F ∧ t.reg 1 = 0xFF ∧ t.reg VF = 1)) = true := by decide

/-- ALU-VF-3. -/
theorem test_shiftRight_vf : answers (run 0x8F16 (machine [(1, 0x03)] 0)) (fun t => decide (t.reg VF = 1)) = true := by decide

/-- ALU-SHL-1. -/
theorem test_shiftLeft :
    answers (run 0x801E (machine [(0, 0x40), (1, 0x80)] 0)) (fun t => decide (t.reg 0 = 0x00 ∧ t.reg VF = 1)) = true := by
  decide

/-- ALU-SHL-3. -/
theorem test_shiftLeft_no_carry :
    answers (run 0x801E (machine [(1, 0x7F), (15, 1)] 0)) (fun t => decide (t.reg 0 = 0xFE ∧ t.reg VF = 0)) = true := by decide

/-! ## Index register, random, timers -/

/-- IDX-A-1. -/
theorem test_setIndex : answers (run 0xA2F0 State.reset) (fun t => decide (t.index = 0x02F0#16)) = true := by decide

/-- IDX-F1E-2: no flag. -/
theorem test_addIndex_no_flag :
    answers (run 0xF21E (machine [(2, 1)] 0xFFF)) (fun t => decide (t.index = 0x1000#16 ∧ t.reg VF = 0)) = true := by decide

/-- IDX-F1E-3. -/
theorem test_addIndex_wraps : answers (run 0xF21E (machine [(2, 1)] 0xFFFF)) (fun t => decide (t.index = 0#16)) = true := by
  decide

/-- IDX-F29-2: the low nibble (C3). -/
theorem test_glyphAddr_low_nibble :
    answers (run 0xF429 (machine [(4, 0x1A)] 0)) (fun t => decide (t.index = 0x0032#16)) = true := by decide

/-- RND-1: the draw B7. -/
theorem test_random_masks : (setMasked 3 0x0F#8 (0xB7#8, State.reset)).reg 3 = 0x07#8 := by decide

/-- RND-2: any draw. -/
theorem test_random_zero_mask : ∃ t, run 0xC300 (machine [(3, 0xFF)] 0) = .next t ∧ t.reg 3 = 0x00#8 :=
  ⟨_, rfl, by rw [setMasked, State.reg_setReg, if_pos (by rfl)]; exact BitVec.and_zero⟩

/-- TMR-1. -/
theorem test_getDelay :
    answers (run 0xF507 { State.reset with dt := 0x3C }) (fun t => decide (t.reg 5 = 0x3C ∧ t.dt = 0x3C)) = true := by decide

/-- TMR-2. -/
theorem test_setDelay :
    answers (run 0xF015 (machine [(0, 0x3C)] 0)) (fun t => decide (t.dt = 0x3C ∧ t.st = 0)) = true := by decide

/-- TMR-3. -/
theorem test_setSound :
    answers (run 0xF018 (machine [(0, 0x05)] 0)) (fun t => decide (t.st = 0x05 ∧ t.dt = 0)) = true := by decide

/-! ## BCD and bulk transfer -/

/-- W4, 246. -/
theorem test_bcd :
    answers (run 0xF033 (machine [(0, 0xF6)] 0x300))
      (fun t => decide (bytes3 t 0x300 = [2, 4, 6] ∧ t.index = 0x300#16)) = true := by decide

/-- MEM-BCD-6. -/
theorem test_bcd_out_of_bounds : raises (run 0xF033 (machine [] 0xFFE)) (.memoryOutOfBounds 0x1000) = true := by decide

/-- MEM-ST-1. -/
theorem test_storeRegs :
    answers (run 0xF255 (machine [(0, 1), (1, 2), (2, 3), (3, 4)] 0x300))
      (fun t => decide (bytes3 t 0x300 = [1, 2, 3] ∧ t.byte 0x303 = 0 ∧ t.index = 0x303#16)) = true := by decide

/-- MEM-ST-3. -/
theorem test_storeRegs_to_the_end :
    answers (run 0xFF55 (machine [(0, 1), (15, 0x99)] 0xFF0))
      (fun t => decide (t.byte 0xFF0 = 1 ∧ t.byte 0xFFF = 0x99 ∧ t.index = 0x1000#16)) = true := by decide

/-- MEM-LD-1. -/
theorem test_loadRegs :
    answers (run 0xF265 (storing (machine [(3, 0x77)] 0x300) 0x300 [2, 4, 6, 8]))
      (fun t => decide (t.reg 0 = 2 ∧ t.reg 1 = 4 ∧ t.reg 2 = 6 ∧ t.reg 3 = 0x77 ∧ t.index = 0x303#16)) = true := by decide

/-- MEM-LD-3. -/
theorem test_loadRegs_out_of_bounds : raises (run 0xF065 (machine [] 0x1000)) (.memoryOutOfBounds 0x1000) = true := by decide

/-! ## Key-wait -/

/-- KW-1. -/
theorem test_waitKey_none :
    answers (run 0xF30A (machine [(3, 0x55)] 0)) (fun t => decide (t.pc = 0x200#16 ∧ t.reg 3 = 0x55)) = true := by decide

/-- KW-3: the highest index (C1). -/
theorem test_waitKey_highest :
    answers (run 0xF30A (holding State.reset [2, 7, 10])) (fun t => decide (t.pc = 0x202#16 ∧ t.reg 3 = 0x0A)) = true := by
  decide

/-! ## Display -/

/-- DISP-1, with one cell set before. -/
theorem test_clear :
    answers (run 0x00E0 (State.reset.setDisp (setPixel clearDisplay 3 5 true)))
      (fun t => decide (t.disp = clearDisplay ∧ t.reg VF = 0)) = true := by decide

/-- DISP-3 (W9): wraps to the right and down. -/
theorem test_draw_wraps :
    answers (run 0xD013 (storing (machine [(0, 0x3C), (1, 0x1E), (15, 9)] 0x300) 0x300 [0xFF, 0x81, 0x81]))
      (fun t => decide (rowSet t 30 = [0, 1, 2, 3, 60, 61, 62, 63] ∧ rowSet t 31 = [3, 60] ∧ rowSet t 0 = [3, 60] ∧
        rowSet t 1 = [] ∧ t.reg VF = 0)) = true := by decide

/-- DISP-7: a set cell is turned off. -/
theorem test_draw_collides :
    answers (run 0xD011 ((storing (machine [] 0x300) 0x300 [0x40]).setDisp (setPixel clearDisplay 0 1 true)))
      (fun t => decide (t.disp = clearDisplay ∧ t.reg VF = 1)) = true := by decide

/-! ## Host operations -/

/-- HOST-1. -/
theorem test_keyPress : answers (hostCall (.keyPress 0xF) State.reset) (fun t => t.keys[15]) = true := by decide

/-- HOST-2. -/
theorem test_keyPress_invalid : raises (hostCall (.keyPress 16) State.reset) (.invalidKeyIndex 16) = true := by decide

/-- HOST-3. -/
theorem test_keyRelease_up : answers (hostCall (.keyRelease 3) State.reset) (fun t => decide (t = State.reset)) = true := by
  decide

/-- HOST-5. -/
theorem test_loadProgram_too_large :
    raises (hostCall (.loadProgram (List.replicate 3585 1#8)) State.reset) (.programTooLarge 3585) = true := by
  rw [hostCall_loadProgram rfl, loadProgram, List.length_replicate]
  decide

/-- D24: a second load is refused. -/
theorem test_loadProgram_twice :
    refuses (hostCall (.loadProgram [0x12]) { State.reset with loadable := false }) .loadProgramMisused = true := by decide

/-- HOST-6. -/
theorem test_faulted_refuses :
    refuses (hostCall .displaySnapshot { State.reset with faulted := some (.invalidKeyIndex 16) }) .instanceFaulted = true := by
  decide

/-- TMR-4 and TMR-5 in one call. -/
theorem test_tickTimers :
    answers (hostCall .tickTimers { State.reset with dt := 2, st := 0 }) (fun t => decide (t.dt = 1 ∧ t.st = 0)) = true := by
  decide

/-- TMR-6. -/
theorem test_tick_keeps_timers : answers (run 0x6001 { State.reset with dt := 5 }) (fun t => decide (t.dt = 5)) = true := by
  decide

/-- A coming call that is not a tick is the step. -/
theorem test_step_takes_the_call :
    answers (step { State.reset with calls := [.keyPress 7, .tick] })
      (fun t => t.keys[7] && decide (t.pc = 0x200#16) && decide (t.calls = [.tick])) = true := by decide

/-! ## Witnesses: for each statement that has hypotheses, a state and operands that meet all of them; where a statement has
several clauses, one for each, at a boundary of its range -/

/-- The largest operands of the last format, and the system calls on both sides of the excluded words. -/
theorem witness_DecodeOfEncodeIsIdentity :
    (Instr.draw 15 15 0xF#4).wf = true ∧ (Instr.sysCall 0x0DF#12).wf = true ∧ (Instr.sysCall 0x0EF#12).wf = true := by decide

theorem witness_EncodeOfDecodeIsIdentity : decode 0xFF65#16 = .instr (.loadRegs 15) ∧ decode 0x0000#16 = .instr (.sysCall 0) := by
  decide

theorem witness_UnrecognizedWordsAreTheFiveGroups :
    decode 0x5FFF#16 = .unrecognized 0x5FFF#16 ∧ decode 0x8FF8#16 = .unrecognized 0x8FF8#16 ∧
    decode 0x9001#16 = .unrecognized 0x9001#16 ∧ decode 0xE000#16 = .unrecognized 0xE000#16 ∧
    decode 0xFFFF#16 = .unrecognized 0xFFFF#16 := by decide

/-- The row of a jump, and both sides of the priority of the exact words over row 0nnn. -/
theorem witness_DecodingFollowsTheOpcodeMap :
    (0x1FFF#16 &&& (opcodeRow (.jump 0)).1 = (opcodeRow (.jump 0)).2) ∧
    (0x00E0#16 &&& (opcodeRow (.sysCall 0)).1 = (opcodeRow (.sysCall 0)).2 ∧ (opcodeRow (.sysCall 0)).2 = 0x0000#16) ∧
    (0x00E1#16 &&& (opcodeRow (.sysCall 0)).1 = (opcodeRow (.sysCall 0)).2 ∧ 0x00E1#16 ≠ 0x00E0#16 ∧ 0x00E1#16 ≠ 0x00EE#16) := by
  decide

theorem witness_FetchReadsBigEndianWithinBounds :
    (State.reset.setPc 0xFFE#16).pc.toNat ≤ 0xFFE ∧ (State.reset.setPc 0xFFF#16).pc.toNat = 0xFFF ∧
    (State.reset.setPc 0x1000#16).pc.toNat > 0xFFF := by decide

/-- Clause by clause: a faulted instance, a fetch error, an unrecognized word, a system call, an instruction. -/
theorem witness_TickRunsOneCycle :
    ({ State.reset with faulted := some (.stackUnderflow 0x200#16) }).faulted ≠ none ∧
    (State.reset.faulted = none ∧ fetch (State.reset.setPc 0xFFF#16) = .error (.memoryOutOfBounds 0x1000)) ∧
    (fetch (storing State.reset 0x200 [0xF0, 0xFF]) = .ok 0xF0FF#16 ∧ decode 0xF0FF#16 = .unrecognized 0xF0FF#16) ∧
    (fetch State.reset = .ok 0x0000#16 ∧ decode 0x0000#16 = .instr (.sysCall 0)) ∧
    (fetch (storing State.reset 0x200 [0x12, 0x34]) = .ok 0x1234#16 ∧ decode 0x1234#16 = .instr (.jump 0x234#12)) := by decide

/-- The highest address an instruction is fetched from. -/
theorem witness_StepRunsTheDecodedInstruction :
    let s := storing (State.reset.setPc 0xFFE#16) 0xFFE [0x60, 0x01]
    s.faulted = none ∧ nextCall s = .tick ∧ s.pc.toNat ≤ 0xFFE ∧
      decodeBytes [s.byte s.pc.toNat, s.byte (s.pc.toNat + 1)] = .instr (.loadImm 0 0x01#8) [] := by decide

/-- A taken skip at the highest pc. -/
theorem witness_PcAfterTickFollowsTheTable :
    let s := storing (State.reset.setPc 0xFFE#16) 0xFFE [0x30, 0x00]
    fetch s = .ok 0x3000#16 ∧ decode 0x3000#16 = .instr (.skipEqImm 0 0) ∧ (∃ t, tick s = .next t) ∧
      SkipTaken s (.skipEqImm 0 0) := ⟨by decide, by decide, ⟨_, rfl⟩, by simp only [SkipTaken]; decide⟩

theorem witness_PcAfterTick_ret :
    let s := storing { State.reset with sp := 16 } 0x200 [0x00, 0xEE]
    fetch s = .ok 0x00EE#16 ∧ decode 0x00EE#16 = .instr .ret ∧ ∃ t, tick s = .next t := ⟨by decide, by decide, ⟨_, rfl⟩⟩

theorem witness_PcAfterTick_waitKey :
    let s := storing State.reset 0x200 [0xF3, 0x0A]
    fetch s = .ok 0xF30A#16 ∧ decode 0xF30A#16 = .instr (.waitKey 3) ∧ (∃ t, tick s = .next t) ∧
      (∀ k : Fin 16, s.keys[k] = false) ∧ ((holding s [15]).keys[(15 : Fin 16)] = true) :=
  ⟨by decide, by decide, ⟨_, rfl⟩, by decide, by decide⟩

theorem witness_MemoryAccessesAreCheckedAndExact : 0x1000 > 0xFFF ∧ 0xFFF ≤ 0xFFF ∧ State.reset.MemWf := by decide

theorem witness_LaterFetchSeesStoredBytes :
    ∃ t u : State, (machine [(0, 0x12)] 0xFF0).MemWf ∧ 1 ≤ (15 : RegIdx).val ∧
      exec (.storeRegs 15) (machine [(0, 0x12)] 0xFF0) = .next t ∧ (∀ a, u.byte a = t.byte a) ∧ u.pc = (machine [(0, 0x12)] 0xFF0).index :=
  ⟨_, State.setPc _ 0xFF0#16, by decide, by decide, rfl, fun _ => rfl, by decide⟩

theorem witness_CallPushesReturnAddress :
    ({ State.reset with sp := 15 }).sp.val = (15 : Fin 16).val ∧ State.reset.sp.val = (0 : Fin 16).val ∧
    ({ State.reset with sp := 16 }).sp.val = 16 := by decide

theorem witness_ReturnPopsReturnAddress :
    ({ State.reset with sp := 16 }).sp.val = (15 : Fin 16).val + 1 ∧ ({ State.reset with sp := 1 }).sp.val = (0 : Fin 16).val + 1 ∧
    State.reset.sp.val = 0 := by decide

/-- The last slot; the RET runs from another state with the same stack. -/
theorem witness_ReturnUndoesCall :
    ∃ t u : State, exec (.call 0xFFF#12) { State.reset with sp := 15, pc := 0x1000#16 } = .next t ∧ u.stack = t.stack ∧ u.sp = t.sp ∧
      u.config = State.reset.config ∧ (0x1000#16).toNat < 2 ^ State.reset.config.pcWidth.bits :=
  ⟨_, State.setIndex _ 0x300#16, rfl, rfl, rfl, rfl, by decide⟩

/-- Both shift sources. -/
theorem witness_ShiftsTakeVyAndKeepTheBitShiftedOut :
    State.reset.config.shiftSource = .vy ∧ otherReset.config.shiftSource = .vx := by decide

theorem witness_SkipsOnKeyLatch :
    ((machine [(5, 0x0F)] 0).reg 5).toNat = (15 : Fin 16).val ∧ ((machine [(5, 0x10)] 0).reg 5).toNat > 15 := by decide

theorem witness_SystemCallAlwaysRaises : 0x0E1#12 ≠ 0x0E0#12 ∧ 0x0E1#12 ≠ 0x0EE#12 := by decide

theorem witness_OnlySixInstructionsWriteTheFlag :
    ∃ t, exec (.sub 0 1) State.reset = .next t ∧ t.reg VF ≠ State.reset.reg VF := ⟨_, rfl, by decide⟩

theorem witness_RegistersChangeOnlyAsDestinations :
    ∃ t, exec (.loadRegs 14) (storing (machine [] 0x300) 0x30E [0x77]) = .next t ∧ (14 : RegIdx) ≠ VF ∧
      t.reg 14 ≠ (storing (machine [] 0x300) 0x30E [0x77]).reg 14 := ⟨_, rfl, by decide, by decide⟩

theorem witness_BcdStoresThreeDigits :
    ((machine [] 0xFFD).MemWf ∧ (machine [] 0xFFD).index.toNat + 2 ≤ 0xFFF) ∧
    (machine [] 0xFFE).index.toNat + 2 > 0xFFF := by decide

theorem witness_StoreRegsWritesAndAdvancesIndex :
    ((machine [] 0xFF0).MemWf ∧ (machine [] 0xFF0).index.toNat + (15 : RegIdx).val ≤ 0xFFF) ∧
    (machine [] 0xFF1).index.toNat + (15 : RegIdx).val > 0xFFF := by decide

theorem witness_LoadRegsReadsAndAdvancesIndex :
    (machine [] 0xFF0).index.toNat + (15 : RegIdx).val ≤ 0xFFF ∧ (machine [] 0x1000).index.toNat + (0 : RegIdx).val > 0xFFF := by
  decide

theorem witness_LoadRegsUndoesStoreRegs :
    ∃ t u : State, (machine [] 0xFF0).MemWf ∧ exec (.storeRegs 15) (machine [] 0xFF0) = .next t ∧
      (∀ a, u.byte a = t.byte a) ∧ u.index = (machine [] 0xFF0).index :=
  ⟨_, State.setIndex _ 0xFF0#16, by decide, rfl, fun _ => rfl, by decide⟩

theorem witness_WaitKeyTakesTheHighestKeyOrRewinds :
    (∀ k : Fin 16, State.reset.keys[k] = false) ∧
    ((holding State.reset [0, 15]).keys[(15 : Fin 16)] = true ∧
      ∀ j : Fin 16, 15 < j → (holding State.reset [0, 15]).keys[j] = false) ∧
    ((holding State.reset [0]).keys[(0 : Fin 16)] = true ∧ ∀ j : Fin 16, 0 < j → (holding State.reset [0]).keys[j] = false) := by
  decide

theorem witness_KeyWaitTickWithoutKeyChangesNothing :
    let s := storing State.reset 0x200 [0xFF, 0x0A]
    s.faulted = none ∧ fetch s = .ok (formatXKK 0xF#4 15 0x0A#8) ∧ (∀ k : Fin 16, s.keys[k] = false) ∧
      (fetch (holding s [0]) = .ok (formatXKK 0xF#4 15 0x0A#8) ∧ (holding s [0]).keys[(0 : Fin 16)] = true ∧
        ∀ j : Fin 16, 0 < j → (holding s [0]).keys[j] = false) := by decide

/-- n = 0 with I past the memory, the last sprite that fits, one byte too many; a cell covered that is set, one that is clear,
and a sprite that covers nothing. -/
theorem witness_DrawXorsTheSpriteAndReportsCollision :
    (0#4 = 0#4) ∧ (machine [] 0xFF1).index.toNat + (15#4).toNat ≤ 0x1000 ∧
    (2#4 ≠ 0#4 ∧ (machine [] 0xFFF).index.toNat + (2#4).toNat > 0x1000) ∧
    (Covers (machine [] 0) 0x3F 0x1F 1#4 31 63 ∧ pixel (State.reset.setDisp (setPixel clearDisplay 31 63 true)).disp 31 63 = true) ∧
    (Covers (machine [] 0) 0x3F 0x1F 2#4 0 63 ∧ pixel State.reset.disp 0 63 = false) ∧
    (∀ r col, Covers (machine [] 0x300) 0 0 1#4 r col → pixel State.reset.disp r col = false) := by
  refine ⟨rfl, by decide, by decide, ⟨⟨0, 0, by decide⟩, by decide⟩, ⟨⟨1, 0, by decide⟩, by decide⟩, ?_⟩
  intro r col _
  exact pixel_clearDisplay r col

/-- The last bit of the last row, across the lower right corner, drawn in two displays; and another bit. -/
theorem witness_SpriteTouchesNoCellTwice :
    pixel (drawBit 0xFF 0xFF 14 7 (clearDisplay, false)).1 13 6 ≠ pixel clearDisplay 13 6 ∧
    pixel (drawBit 0xFF 0xFF 14 7 (setPixel clearDisplay 13 6 true, false)).1 13 6 ≠
      pixel (setPixel clearDisplay 13 6 true) 13 6 ∧ ¬ ((14 : Nat) = 14 ∧ (7 : Nat) = 6) := by decide

/-- The state an outcome leaves, for the witnesses. -/
def after (o : Host.Outcome State Fault Refusal) : State :=
  match o with
  | .next t => t
  | .fault _ => State.reset
  | .refused _ => State.reset

/-- The glyph of 0 across the lower right corner, then the same with other registers; from a clear display. -/
theorem witness_DrawingTwiceRestoresTheDisplay :
    let s := machine [(0, 0x3F), (1, 0x1F)] 0
    let t := after (exec (.draw 0 1 5#4) s)
    let u := (t.setReg 2 0x3F).setReg 3 0x1F
    exec (.draw 0 1 5#4) s = .next t ∧ u.disp = t.disp ∧ (∀ a, u.byte a = s.byte a) ∧ u.index = s.index ∧ u.reg 2 = s.reg 0 ∧
      u.reg 3 = s.reg 1 ∧ (∀ r col, pixel s.disp r col = false) ∧ ∃ r col, Covers s (s.reg 0) (s.reg 1) 5#4 r col :=
  ⟨rfl, rfl, fun _ => rfl, rfl, by decide, by decide, fun r col => pixel_clearDisplay r col, 31, 63, 0, 0, by decide⟩

/-- The display and the delay timer, each changed. -/
theorem witness_DevicesAreWrittenOnlyByTheirInstructions :
    (∃ t, exec (.draw 0 0 1#4) State.reset = .next t ∧ t.disp ≠ State.reset.disp) ∧
    (∃ t, exec (.setDelay 0) (machine [(0, 1)] 0) = .next t ∧ t.dt ≠ (machine [(0, 1)] 0).dt) ∧
    (∃ t, exec (.setSound 0) (machine [(0, 1)] 0) = .next t ∧ t.st ≠ (machine [(0, 1)] 0).st) :=
  ⟨⟨_, rfl, by decide⟩, ⟨_, rfl, by decide⟩, ⟨_, rfl, by decide⟩⟩

/-- Memory, I, the stack and SP, each changed. -/
theorem witness_MemoryIndexAndStackWriters :
    (∃ t, exec (.storeRegs 0) (machine [(0, 1)] 0xFFF) = .next t ∧ t.mem ≠ (machine [(0, 1)] 0xFFF).mem ∧
      t.index ≠ (machine [(0, 1)] 0xFFF).index) ∧
    (∃ t, exec (.call 0) { State.reset with sp := 15 } = .next t ∧ t.stack ≠ State.reset.stack ∧
      t.sp ≠ ({ State.reset with sp := 15 }).sp) ∧
    (∃ t, exec .ret { State.reset with sp := 1 } = .next t ∧ t.sp ≠ ({ State.reset with sp := 1 }).sp) :=
  ⟨⟨_, rfl, by decide, by decide⟩, ⟨_, rfl, by decide, by decide⟩, ⟨_, rfl, by decide⟩⟩

/-- A faulted instance, for the clauses on one. -/
def faultedState : State := { State.reset with faulted := some (.invalidKeyIndex 16) }

theorem witness_TimerTickDecrementsIfPositive :
    faultedState.faulted ≠ none ∧ ({ State.reset with dt := 0xFF, st := 0 }).faulted = none := by decide

theorem witness_KeyCallsSetAndClearOneLatch :
    faultedState.faulted ≠ none ∧ State.reset.faulted = none ∧ (15 : Fin 16).val = 15 ∧ 16 > 15 := by decide

theorem witness_SnapshotIsRowMajor : (State.reset.setDisp (setPixel clearDisplay 31 63 true)).faulted = none := by decide

theorem witness_ConstructSetsWhatTheSpecSets :
    0x04F < otherConfig.fontBase.toNat ∧ otherConfig.fontBase.toNat + 80 ≤ 0x0A0 ∧ 0xFFF ≤ 0xFFF := by decide

theorem witness_LoadProgramCopiesTheImage :
    faultedState.faulted ≠ none ∧ State.reset.faulted = none ∧ State.reset.loadable = true ∧ State.reset.MemWf ∧
    State.reset.config.progStart.toNat + (List.replicate 3584 (1#8 : Byte)).length ≤ 4096 ∧
    State.reset.config.progStart.toNat + (List.replicate 3585 (1#8 : Byte)).length > 4096 ∧
    (({ State.reset with loadable := false }).faulted = none ∧ ({ State.reset with loadable := false }).loadable = false) := by
  simp only [List.length_replicate]
  decide

theorem witness_FirstTickFetchesTheImage :
    Config.default.progStart.toNat + ((0x12#8 : Byte) :: 0x34#8 :: List.replicate 3582 (0#8 : Byte)).length ≤ 4096 := by
  simp only [List.length_cons, List.length_replicate]
  decide

/-- The glyph set directly below the program, and an image that ends with the memory. -/
theorem witness_LaunchLaysOutTheAddressMap :
    ({ fontBase := 0x1B0#12 : Config }).Admissible ∧
    ({ fontBase := 0x1B0#12 : Config }).progStart.toNat + (List.replicate 3584 (1#8 : Byte)).length ≤ 4096 := by
  rw [List.length_replicate]
  decide

/-- An error of an instruction and one of a host call, and an instance faulted with it. -/
theorem witness_ErrorEndsTheInstance :
    hostCall .tick State.reset = .fault (.unsupportedSystemCall 0x0000#16) ∧
    hostCall (.keyRelease 16) State.reset = .fault (.invalidKeyIndex 16) ∧
    faultedState.faulted = some (.invalidKeyIndex 16) := ⟨rfl, rfl, rfl⟩

theorem witness_StepPerformsTheNextHostCall :
    State.reset.calls = [] ∧ ({ State.reset with calls := [.keyPress 15, .tick] }).calls = .keyPress 15 :: [.tick] := by decide

/-- The self-jump at the highest address, 1FFE at 0xFFE (and P1's, 120C at 0x20C). -/
theorem witness_EndedRunStaysEnded :
    let s := { storing (State.reset.setPc 0xFFE#16) 0xFFE [0x1F, 0xFE] with loadable := false }
    Ended s ∧ s.loadable = false ∧ s.calls = [] := by decide

theorem witness_TickAtSelfJumpChangesNothing : Ended (storing (State.reset.setPc 0x20C#16) 0x20C [0x12, 0x0C]) := by decide

/-- A step from a state with a full stack and the highest pc that fetches. -/
theorem witness_StepKeepsTheInvariant :
    let s := storing ({ State.reset with sp := 16 }.setPc 0xFFE#16) 0xFFE [0x30, 0x00]
    Inv s ∧ ∃ t, step s = .next t := ⟨by decide, ⟨_, rfl⟩⟩

theorem witness_StepKeepsTheConfiguration : ∃ t, step (storing otherReset 0x300 [0x60, 0x01]) = .next t := ⟨_, rfl⟩

theorem witness_PcNeverWraps :
    let s := storing (machine [(0, 0xFF)] 0 |>.setPc 0xFFE#16) 0xFFE [0xBF, 0xFF]
    Inv s ∧ ∃ t, hostCall .tick s = .next t ∧ t.pc.toNat = 0x10FE := ⟨by decide, ⟨_, rfl, by decide⟩⟩

/-- Two states that differ in a stale slot and in nothing else. -/
theorem witness_StaleStackSlotsAreUnobservable :
    State.reset ≠ { State.reset with stack := State.reset.stack.set 0 0x456#16 } ∧
    hideStale State.reset = hideStale { State.reset with stack := State.reset.stack.set 0 0x456#16 } := by decide

end Sys2Proof.Tests
end

section
/-! The configuration along a step (00_scope R7): every instruction and every host call keeps it. -/

namespace Sys2Proof.Machine

/-! ## The operations that instructions share -/

@[simp] theorem State.skipIf_config (s : State) (cond : Bool) : (s.skipIf cond).config = s.config := by
  rw [State.skipIf_eq]

theorem memWriteList_config {xs : List Byte} {addr : Nat} {s t : State} (h : memWriteList addr xs s = .ok t) :
    t.config = s.config := by
  obtain ⟨ht, -, -⟩ := memWriteList_inv h
  rw [ht]

/-! ## Host calls that answer a next state -/

theorem latchKey_next {k : Nat} {down : Bool} {s t : State} (h : latchKey k down s = .next t) :
    ∃ hk : k < 16, t = s.setKey ⟨k, hk⟩ down := by
  by_cases hk : k < 16
  · rw [latchKey, keyIndex_ok hk] at h
    cases h
    exact ⟨hk, rfl⟩
  · rw [latchKey, keyIndex_error hk] at h
    cases h

theorem loadProgram_next {bytes : List Byte} {s t : State} (h : loadProgram bytes s = .next t) :
    s.loadable = true ∧ bytes.length ≤ Config.memSize - s.config.progStart.toNat ∧
      ∃ u, memWriteList s.config.progStart.toNat bytes s = .ok u ∧ t = { u with loadable := false } := by
  unfold loadProgram at h
  split at h
  · cases h
  · next hl =>
    split at h
    · cases h
    · next hlen =>
      split at h
      · next u hu => cases h; exact ⟨by simpa using hl, by omega, u, hu, rfl⟩
      · cases h

/-- A call that answers a next state was made on an instance that is not faulted (60_exceptions R228). -/
theorem faulted_eq_none_of_hostCall_next {op : HostOp} {s t : State} (h : hostCall op s = .next t) : s.faulted = none := by
  cases hf : s.faulted with
  | none => rfl
  | some e => rw [hostCall_faulted hf] at h; cases h

/-! ## The configuration -/

/-- Only the meanings that can raise an error, and the skips, need their lemmas; each of the others answers an update of another
field. -/
theorem exec_next_config {i : Instr} {s t : State} (h : exec i s = .next t) : t.config = s.config := by
  cases i with
  | call nnn => obtain ⟨_, rfl⟩ := execCall_next h; rfl
  | ret => obtain ⟨_, rfl⟩ := execRet_next h; rfl
  | skipEqImm x kk | skipNeImm x kk | skipEqReg x y | skipNeReg x y => cases h; exact State.skipIf_config s _
  | skipKey x => obtain ⟨k, -, rfl⟩ := execSkipKey_next h; exact State.skipIf_config s _
  | skipNotKey x => obtain ⟨k, -, rfl⟩ := execSkipNotKey_next h; exact State.skipIf_config s _
  | sysCall nnn => cases h
  | bcd x => exact memWriteList_config (execBcd_next h)
  | storeRegs x => obtain ⟨u, hu, rfl⟩ := execStoreRegs_next h; rw [State.setIndex_config, memWriteList_config hu]
  | loadRegs x => obtain ⟨-, ht, -⟩ := execLoadRegs_next h; rw [ht]
  | waitKey x => obtain ⟨-, rfl⟩ | ⟨k, -, -, rfl⟩ := execWaitKey_next h <;> rfl
  | draw x y n => obtain ⟨-, rfl⟩ := execDraw_next h; rfl
  | _ => cases h; rfl

theorem tick_next_config {s t : State} (h : tick s = .next t) : t.config = s.config := by
  obtain ⟨w, i, -, -, hi⟩ := tick_next h
  calc t.config = (tickEntry s).config := exec_next_config hi
    _ = s.config := tickEntry_config s

theorem hostCall_next_config {op : HostOp} {s t : State} (h : hostCall op s = .next t) : t.config = s.config := by
  have hf := faulted_eq_none_of_hostCall_next h
  cases op with
  | tick => exact tick_next_config (hostCall_tick hf ▸ h)
  | tickTimers => rw [hostCall_tickTimers hf] at h; cases h; rfl
  | keyPress k => obtain ⟨hk, rfl⟩ := latchKey_next (hostCall_keyPress hf k ▸ h); rfl
  | keyRelease k => obtain ⟨hk, rfl⟩ := latchKey_next (hostCall_keyRelease hf k ▸ h); rfl
  | displaySnapshot => rw [hostCall_displaySnapshot hf] at h; cases h; rfl
  | loadProgram bytes =>
    obtain ⟨-, -, u, hu, rfl⟩ := loadProgram_next (hostCall_loadProgram hf bytes ▸ h)
    have hc : u.config = s.config := memWriteList_config hu
    exact hc

/-- Settles O58: a step is a host call, which keeps the configuration, on the state with that call taken away. -/
theorem stepKeepsTheConfiguration : Obligations.StepKeepsTheConfiguration := by
  unfold Obligations.StepKeepsTheConfiguration
  intro s t h
  rw [step_eq] at h
  calc t.config = (popCall s).config := hostCall_next_config h
    _ = s.config := popCall_config s

end Sys2Proof.Machine
end

section
/-! What an instruction that answers a next state can have changed; from it who writes the devices (10_state R35), and which
registers change (R22, R23). -/

namespace Sys2Proof.Machine

/-! ## What an instruction can do to the state -/

/-- The next states an instruction can answer: which components it writes, and of memory and the stack what it writes there.
Where a class has one instruction or two, it names them. -/
inductive Effect (s : State) : Instr → State → Prop
  | registers (i : Instr) (v : Vector Byte 16) (draws : Nat) : Effect s i { s with v := v, draws := draws }
  | indexes (i : Instr) (v : Vector Byte 16) (a : Word) : Effect s i { s with v := v, index := a }
  | jumps (i : Instr) (a : Word) : Effect s i { s with pc := a }
  | calls (nnn : Addr12) (h : s.sp.val < 16) : Effect s (.call nnn) { s with
      pc := pcOf s.config (zextAddr nnn), stack := s.stack.set s.sp.val s.pc h, sp := ⟨s.sp.val + 1, by omega⟩ }
  | returns (h : 0 < s.sp.val) : Effect s .ret { s with
      pc := pcOf s.config s.stack[s.sp.val - 1], sp := ⟨s.sp.val - 1, by omega⟩ }
  | stores (i : Instr) (m : Memory) (a : Word) (h : s.MemWf → Memory.wf s.config m = true) :
      Effect s i { s with mem := m, index := a }
  | setsDelay (x : RegIdx) (b : Byte) : Effect s (.setDelay x) { s with dt := b }
  | setsSound (x : RegIdx) (b : Byte) : Effect s (.setSound x) { s with st := b }
  | clears (d : Display) : Effect s .clear { s with disp := d }
  | draws (x y : RegIdx) (n : BitVec 4) (v : Vector Byte 16) (d : Display) :
      Effect s (.draw x y n) { s with v := v, disp := d }

theorem Effect.skips (s : State) (i : Instr) (cond : Bool) : Effect s i (s.skipIf cond) := by
  rw [State.skipIf_eq]
  exact .jumps i _

/-- A list of writes, after which I may move. -/
theorem Effect.writes {addr : Nat} {xs : List Byte} {s u : State} (h : memWriteList addr xs s = .ok u) (i : Instr) (a : Word) :
    Effect s i (u.setIndex a) := by
  obtain ⟨hu, -, hw⟩ := memWriteList_inv h
  rw [hu] at hw ⊢
  exact .stores i _ a hw

theorem exec_effect {i : Instr} {s t : State} (h : exec i s = .next t) : Effect s i t := by
  cases i with
  | jump nnn | jumpOffset nnn => cases h; exact .jumps _ _
  | call nnn => obtain ⟨hs, rfl⟩ := execCall_next h; exact .calls nnn hs
  | ret => obtain ⟨hs, rfl⟩ := execRet_next h; exact .returns hs
  | skipEqImm x kk | skipNeImm x kk | skipEqReg x y | skipNeReg x y => cases h; exact .skips s _ _
  | skipKey x => obtain ⟨k, -, rfl⟩ := execSkipKey_next h; exact .skips s _ _
  | skipNotKey x => obtain ⟨k, -, rfl⟩ := execSkipNotKey_next h; exact .skips s _ _
  | sysCall nnn => cases h
  | setIndex nnn | addIndex x | glyphAddr x => cases h; exact .indexes _ s.v _
  | setDelay x => cases h; exact .setsDelay x _
  | setSound x => cases h; exact .setsSound x _
  | bcd x => exact .writes (execBcd_next h) _ t.index
  | storeRegs x => obtain ⟨u, hu, rfl⟩ := execStoreRegs_next h; exact .writes hu _ _
  | loadRegs x => obtain ⟨-, ht, -⟩ := execLoadRegs_next h; rw [ht]; exact .indexes _ _ _
  | waitKey x =>
    obtain ⟨-, rfl⟩ | ⟨k, -, -, rfl⟩ := execWaitKey_next h
    · exact .jumps _ _
    · exact .registers _ _ s.draws
  | draw x y n => obtain ⟨-, rfl⟩ := execDraw_next h; exact .draws x y n _ _
  | clear => cases h; exact .clears _
  | random x kk => cases h; exact .registers _ _ _
  | _ => cases h; exact .registers _ _ s.draws

/-! ## Devices (R35) -/

/-- Settles O40: the classes of effects that write a device name its instructions, and none writes the latch, `faulted`,
`loadable` or `calls`. -/
theorem devicesAreWrittenOnlyByTheirInstructions : Obligations.DevicesAreWrittenOnlyByTheirInstructions := by
  unfold Obligations.DevicesAreWrittenOnlyByTheirInstructions
  intro i s t h
  cases exec_effect h <;> simp

/-! ## Registers (R22, R23) -/

@[simp] theorem State.reg_skipIf (s : State) (cond : Bool) (r : RegIdx) : (s.skipIf cond).reg r = s.reg r := by
  rw [State.skipIf_eq]; rfl

theorem memWriteList_reg {xs : List Byte} {addr : Nat} {s t : State} (h : memWriteList addr xs s = .ok t) (r : RegIdx) :
    t.reg r = s.reg r := by
  obtain ⟨ht, -, -⟩ := memWriteList_inv h
  rw [ht]; rfl

/-- A register that an instruction neither names as its destination nor writes as the flag keeps its value. -/
theorem exec_next_reg {i : Instr} {s t : State} {r : RegIdx} (h : exec i s = .next t) (hd : ¬ NamesDestination r i)
    (hf : r = VF → ¬ WritesFlag i) : t.reg r = s.reg r := by
  cases i with
  | loadImm x _ | addImm x _ | copy x _ | or x _ | and x _ | xor x _ | random x _ | getDelay x =>
    cases h; exact State.reg_setReg_ne _ (Ne.symm hd) _
  | add x _ | sub x _ | subReverse x _ | shiftRight x _ | shiftLeft x _ =>
    cases h; exact State.reg_setRegFlag_ne _ (Ne.symm hd) (fun e => hf e trivial) _ _
  | waitKey x =>
    obtain ⟨-, rfl⟩ | ⟨k, -, -, rfl⟩ := execWaitKey_next h
    · rfl
    · exact State.reg_setReg_ne _ (Ne.symm hd) _
  | loadRegs x => obtain ⟨-, -, hr⟩ := execLoadRegs_next h; exact (hr r).trans (if_neg hd)
  | draw x y n => obtain ⟨-, rfl⟩ := execDraw_next h; exact State.reg_setReg_ne _ (fun e => hf e trivial) _
  | call nnn => obtain ⟨_, rfl⟩ := execCall_next h; rfl
  | ret => obtain ⟨_, rfl⟩ := execRet_next h; rfl
  | skipEqImm x kk | skipNeImm x kk | skipEqReg x y | skipNeReg x y => cases h; exact State.reg_skipIf s _ r
  | skipKey x => obtain ⟨k, -, rfl⟩ := execSkipKey_next h; exact State.reg_skipIf s _ r
  | skipNotKey x => obtain ⟨k, -, rfl⟩ := execSkipNotKey_next h; exact State.reg_skipIf s _ r
  | sysCall nnn => cases h
  | bcd x => exact memWriteList_reg (execBcd_next h) r
  | storeRegs x => obtain ⟨u, hu, rfl⟩ := execStoreRegs_next h; exact memWriteList_reg hu r
  | _ => cases h; rfl

/-- Settles O25: were the instruction neither a flag writer nor one that names V[F], V[F] would be unchanged. -/
theorem onlySixInstructionsWriteTheFlag : Obligations.OnlySixInstructionsWriteTheFlag := by
  unfold Obligations.OnlySixInstructionsWriteTheFlag
  intro i s t h hne
  by_contra hno
  obtain ⟨hw, hd⟩ := not_or.mp hno
  exact hne (exec_next_reg h hd fun _ => hw)

/-- Settles O26: were the register not a named destination, it would be unchanged, since it is not the flag. -/
theorem registersChangeOnlyAsDestinations : Obligations.RegistersChangeOnlyAsDestinations := by
  unfold Obligations.RegistersChangeOnlyAsDestinations
  intro i s t r h hr hne
  by_contra hd
  exact hne (exec_next_reg h hd fun e => absurd e hr)

end Sys2Proof.Machine
end

section
/-! The pc after a tick, by the table of 10_state R27, and its bound (R29). -/

namespace Sys2Proof.Machine

/-! ## The rows of the table -/

theorem pcOf_zextAddr_toNat (c : Config) (nnn : Addr12) : (pcOf c (zextAddr nnn)).toNat = nnn.toNat := by
  have := nnn.isLt
  rw [pcOf_of_lt (by rw [zextAddr_toNat]; omega), zextAddr_toNat]

/-- The exact sum of Bnnn (40_control_flow R101). -/
theorem pcOf_jumpOffset_toNat (c : Config) (nnn : Addr12) (b : Byte) :
    (pcOf c (zextAddr nnn + zextByte b)).toNat = nnn.toNat + b.toNat := by
  have := nnn.isLt
  have := b.isLt
  have hsum : (zextAddr nnn + zextByte b).toNat = nnn.toNat + b.toNat := by
    rw [BitVec.toNat_add, zextAddr_toNat, zextByte_toNat]; omega
  rw [pcOf_of_lt (by omega), hsum]

/-- Where a word was fetched, pc moves past it without wrapping. -/
theorem tickEntry_pc_toNat {s : State} {w : Word} (hf : fetch s = .ok w) : (tickEntry s).pc.toNat = s.pc.toNat + 2 := by
  have hpc : s.pc.toNat + 1 < 4096 := (fetch_inv hf).1
  rw [tickEntry_of_fetch hf, BitVec.toNat_add]
  simp; omega

/-- The pc after a skip on `cond`, as a row of the table of R27. -/
theorem pcAfter_skipIf {s : State} {w : Word} (hf : fetch s = .ok w) {cond : Bool} {taken : Prop} (hc : cond = true ↔ taken) :
    (taken → ((tickEntry s).skipIf cond).pc.toNat = s.pc.toNat + 4) ∧
      (¬ taken → ((tickEntry s).skipIf cond).pc.toNat = s.pc.toNat + 2) := by
  have hpc : s.pc.toNat + 1 < 4096 := (fetch_inv hf).1
  have hentry := tickEntry_pc_toNat hf
  have hadd : ((tickEntry s).pc + 2).toNat = s.pc.toNat + 4 := by
    rw [BitVec.toNat_add, hentry]; simp; omega
  rw [← hc]
  refine ⟨fun h => ?_, fun h => ?_⟩
  · rw [h, State.skipIf, if_pos rfl, State.setPc_pc, pcOf_of_lt (by omega), hadd]
  · rw [State.skipIf, if_neg h, hentry]

/-- The row of an instruction that leaves pc past its word. -/
theorem pcAfter_straight {s : State} {w : Word} {pc : Word} {taken : Prop} (hf : fetch s = .ok w) (hn : ¬ taken)
    (hpc : pc = (tickEntry s).pc) : (taken → pc.toNat = s.pc.toNat + 4) ∧ (¬ taken → pc.toNat = s.pc.toNat + 2) :=
  ⟨fun h => absurd h hn, fun _ => by rw [hpc, tickEntry_pc_toNat hf]⟩

theorem memWriteList_pc {xs : List Byte} {addr : Nat} {s t : State} (h : memWriteList addr xs s = .ok t) : t.pc = s.pc := by
  obtain ⟨ht, -, -⟩ := memWriteList_inv h
  rw [ht]

/-- The skip on a key's latch: its condition, when V[x] is the index of key k. -/
theorem exists_key_iff {s : State} {x : RegIdx} {k : Fin 16} (hk : (s.reg x).toNat = k.val) (b : Bool) :
    s.keys[k] = b ↔ ∃ j : Fin 16, (s.reg x).toNat = j.val ∧ s.keys[j] = b := by
  refine ⟨fun h => ⟨k, hk, h⟩, fun ⟨j, hj, h⟩ => ?_⟩
  obtain rfl : k = j := Fin.ext (hk.symm.trans hj)
  exact h

/-- Fx0A goes back to its own address when no key is down, and past it otherwise (45_keywait R190, R193). -/
theorem execWaitKey_pcAfter {s t : State} {w : Word} {x : RegIdx} (hf : fetch s = .ok w)
    (h : execWaitKey x (tickEntry s) = .next t) : PcAfter s (.waitKey x) t.pc := by
  obtain ⟨hn, rfl⟩ | ⟨k, hk, -, rfl⟩ := execWaitKey_next h
  · refine ⟨fun ⟨k, hk⟩ => ?_, fun _ => ?_⟩
    · have hup : s.keys[k] = false := hn k
      rw [hk] at hup
      cases hup
    · have hpc : s.pc.toNat + 1 < 4096 := (fetch_inv hf).1
      have hback : (tickEntry s).pc - 2 = s.pc := by rw [tickEntry_of_fetch hf]; exact BitVec.add_sub_cancel s.pc 2
      rw [State.setPc_pc, hback, pcOf_of_lt (by omega)]
  · refine ⟨fun _ => tickEntry_pc_toNat hf, fun hn => ?_⟩
    have hup : (tickEntry s).keys[k] = false := hn k
    rw [hk] at hup
    cases hup

theorem exec_pcAfter {i : Instr} {s t : State} {w : Word} (hf : fetch s = .ok w) (h : exec i (tickEntry s) = .next t) :
    PcAfter s i t.pc := by
  cases i with
  | jump nnn => cases h; exact pcOf_zextAddr_toNat _ nnn
  | jumpOffset nnn => cases h; exact pcOf_jumpOffset_toNat _ nnn _
  | call nnn => obtain ⟨_, rfl⟩ := execCall_next h; exact pcOf_zextAddr_toNat _ nnn
  | ret =>
    obtain ⟨hs, rfl⟩ := execRet_next h
    exact ⟨⟨s.sp.val - 1, by omega⟩, Nat.sub_add_cancel hs, rfl⟩
  | skipEqImm x kk | skipNeImm x kk | skipEqReg x y | skipNeReg x y =>
    cases h; exact pcAfter_skipIf hf decide_eq_true_iff
  | skipKey x => obtain ⟨k, hk, rfl⟩ := execSkipKey_next h; exact pcAfter_skipIf hf (exists_key_iff hk true)
  | skipNotKey x =>
    obtain ⟨k, hk, rfl⟩ := execSkipNotKey_next h
    exact pcAfter_skipIf hf ((iff_of_eq (Bool.not_eq_true' _)).trans (exists_key_iff hk false))
  | sysCall nnn => cases h
  | waitKey x => exact execWaitKey_pcAfter hf h
  | bcd x => exact pcAfter_straight hf id (memWriteList_pc (execBcd_next h))
  | storeRegs x => obtain ⟨u, hu, rfl⟩ := execStoreRegs_next h; exact pcAfter_straight (pc := u.pc) hf id (memWriteList_pc hu)
  | loadRegs x => obtain ⟨-, ht, -⟩ := execLoadRegs_next h; exact pcAfter_straight hf id (by rw [ht])
  | draw x y n => obtain ⟨-, rfl⟩ := execDraw_next h; exact pcAfter_straight hf id rfl
  | _ => cases h; exact pcAfter_straight hf id rfl

/-- Settles O9: the tick executes the one instruction its word decodes to, which leaves the pc of its row. -/
theorem pcAfterTickFollowsTheTable : Obligations.PcAfterTickFollowsTheTable := by
  unfold Obligations.PcAfterTickFollowsTheTable
  intro s t w i hf hd ht
  obtain ⟨w', i', hf', hd', he⟩ := tick_next ht
  obtain rfl : w = w' := Except.ok.inj (hf.symm.trans hf')
  obtain rfl : i = i' := Decoded.instr.inj (hd.symm.trans hd')
  exact exec_pcAfter hf he

/-! ## The bound -/

theorem pcAfter_row_le {s : State} {pc : Word} {taken : Prop}
    (h : (taken → pc.toNat = s.pc.toNat + 4) ∧ (¬ taken → pc.toNat = s.pc.toNat + 2)) (hpc : s.pc.toNat ≤ 0xFFE) :
    pc.toNat ≤ 0x10FE := by
  obtain ⟨htaken, hnot⟩ := h
  by_cases hc : taken
  · have := htaken hc
    omega
  · have := hnot hc
    omega

/-- Every row of the table stays within the bound of R29, when the fetch was inside memory and the stack holds return addresses. -/
theorem PcAfter.le {s : State} {i : Instr} {pc : Word} (h : PcAfter s i pc) (hpc : s.pc.toNat ≤ 0xFFE) (hs : StackOk s) :
    pc.toNat ≤ 0x10FE := by
  cases i with
  | jump nnn | call nnn =>
    have hrow : pc.toNat = nnn.toNat := h
    have := nnn.isLt
    omega
  | jumpOffset nnn =>
    have hrow : pc.toNat = nnn.toNat + (s.reg 0).toNat := h
    have := nnn.isLt
    have := (s.reg 0).isLt
    omega
  | ret =>
    obtain ⟨j, hj, rfl⟩ := h
    have := pcOf_le s.config s.stack[j]
    have := hs j (by omega)
    omega
  | waitKey x =>
    obtain ⟨hdown, hup⟩ := h
    by_cases hk : ∃ k : Fin 16, s.keys[k] = true
    · have := hdown hk
      omega
    · rw [hup (by simpa using hk)]
      omega
  | _ => exact pcAfter_row_le h hpc

theorem tick_next_pc_le {s t : State} (hs : StackOk s) (h : tick s = .next t) : s.pc.toNat ≤ 0xFFE ∧ t.pc.toNat ≤ 0x10FE := by
  obtain ⟨w, i, hf, -, he⟩ := tick_next h
  have hpc : s.pc.toNat + 1 < 4096 := (fetch_inv hf).1
  have hle : s.pc.toNat ≤ 0xFFE := by omega
  exact ⟨hle, (exec_pcAfter hf he).le hle hs⟩

/-- Settles O54: the fetch bounds the pc before the tick, and the table of R27 the pc after it. -/
theorem pcNeverWraps : Obligations.PcNeverWraps := by
  unfold Obligations.PcNeverWraps
  intro s t ⟨_, _, hs⟩ h
  exact tick_next_pc_le hs (hostCall_tick (faulted_eq_none_of_hostCall_next h) ▸ h)

end Sys2Proof.Machine
end

section
/-! The invariant along a step: memory in canonical form, pc within the bound of 10_state R29, valid return addresses. -/

namespace Sys2Proof.Machine

theorem exec_next_memWf {i : Instr} {s t : State} (h : exec i s = .next t) (hm : s.MemWf) : t.MemWf := by
  cases exec_effect h with
  | stores i m a hw => exact hw hm
  | _ => exact hm

/-- CALL pushes the pc past itself, which bounds the new slot; no other instruction adds one (40_control_flow R102). -/
theorem exec_next_stackOk {i : Instr} {s t : State} (h : exec i s = .next t) (hpc : s.pc.toNat ≤ 0x1000) (hs : StackOk s) :
    StackOk t := by
  cases exec_effect h with
  | calls nnn hsp =>
    intro j hj
    by_cases htop : j.val = s.sp.val
    · simpa [htop] using hpc
    · have hbelow : j.val < s.sp.val := by simp only at hj; omega
      simpa [Ne.symm htop] using hs j hbelow
  | returns hsp => exact fun j hj => hs j (by simp only at hj; omega)
  | _ => exact hs

theorem tick_next_inv {s t : State} (hi : Inv s) (h : tick s = .next t) : Inv t := by
  obtain ⟨hm, -, hs⟩ := hi
  obtain ⟨hle, hpc⟩ := tick_next_pc_le hs h
  obtain ⟨w, i, hf, -, he⟩ := tick_next h
  have hentry : (tickEntry s).pc.toNat ≤ 0x1000 := by rw [tickEntry_pc_toNat hf]; omega
  exact ⟨exec_next_memWf he hm, hpc, exec_next_stackOk he hentry hs⟩

/-- Of the calls, only tick() moves pc or the stack, and beside it only load_program writes memory. -/
theorem hostCall_next_inv {op : HostOp} {s t : State} (hi : Inv s) (h : hostCall op s = .next t) : Inv t := by
  have hf := faulted_eq_none_of_hostCall_next h
  cases op with
  | tick => exact tick_next_inv hi (hostCall_tick hf ▸ h)
  | tickTimers => rw [hostCall_tickTimers hf] at h; cases h; exact hi
  | keyPress k => obtain ⟨hk, rfl⟩ := latchKey_next (hostCall_keyPress hf k ▸ h); exact hi
  | keyRelease k => obtain ⟨hk, rfl⟩ := latchKey_next (hostCall_keyRelease hf k ▸ h); exact hi
  | displaySnapshot => rw [hostCall_displaySnapshot hf] at h; cases h; exact hi
  | loadProgram bytes =>
    obtain ⟨-, -, u, hu, rfl⟩ := loadProgram_next (hostCall_loadProgram hf bytes ▸ h)
    obtain ⟨hm, hpc, hs⟩ := hi
    obtain ⟨hu', -, hw⟩ := memWriteList_inv hu
    rw [hu'] at hw ⊢
    exact ⟨hw hm, hpc, hs⟩

/-- Settles O52: a step is a host call, which keeps the invariant, and taking the call off the list does not touch it. -/
theorem stepKeepsTheInvariant : Obligations.StepKeepsTheInvariant := by
  unfold Obligations.StepKeepsTheInvariant
  intro s t hi h
  have hpop : Inv (popCall s) := hi
  exact hostCall_next_inv hpop (step_eq s ▸ h)

end Sys2Proof.Machine
end

section
/-! What construct() leaves (10_state R40, 70_reset_and_hazards R260). -/

namespace Sys2Proof.Machine

theorem construct_inv (c : Config) (u : LaunchValues) : Inv (construct c u) := by
  refine ⟨launchMemory_wf c u.cells, ?_, fun j hj => absurd hj (Nat.not_lt_zero _)⟩
  have := c.progStart.isLt
  show (zextAddr c.progStart).toNat ≤ 0x10FE
  rw [zextAddr_toNat]
  omega

/-- Settles O53: `State.reset` is one of the launches. -/
theorem launchMeetsTheInvariant : Obligations.LaunchMeetsTheInvariant := by
  unfold Obligations.LaunchMeetsTheInvariant
  exact ⟨construct_inv, reset_eq_construct ▸ construct_inv _ _⟩

theorem construct_byte_glyph (c : Config) (u : LaunchValues) (k : Fin 80) :
    (construct c u).byte (c.fontBase.toNat + k.val) = c.glyphData[k] := by
  have hglyph : inGlyphSet c (c.fontBase.toNat + k.val) = true := by simp [inGlyphSet]
  exact (launchMemory_glyph hglyph u.cells).trans (background_glyph c k)

/-- A launch cell outside the glyph set is the byte memory holds there. -/
theorem construct_byte_cell {c : Config} (u : LaunchValues) {a : Nat} (b : Byte)
    (hout : a < c.fontBase.toNat ∨ c.fontBase.toNat + 80 ≤ a) (ha : a ≤ 0xFFF) :
    (construct c { u with cells := (a, b) :: u.cells }).byte a = b := by
  have hmem : a < Config.memSize := Nat.lt_succ_of_le ha
  have hg : inGlyphSet c a = false := by
    simp only [inGlyphSet, Bool.and_eq_false_iff, decide_eq_false_iff_not]; omega
  show Memory.get c (launchMemory c ((a, b) :: u.cells)) a = b
  rw [launchMemory, if_pos (by simp [hmem, hg]), Memory.get_set (launchMemory_wf c u.cells), if_pos rfl]

/-- Settles O45: `construct` names each component, and the bytes are those of the two lemmas above. -/
theorem constructSetsWhatTheSpecSets : Obligations.ConstructSetsWhatTheSpecSets := by
  unfold Obligations.ConstructSetsWhatTheSpecSets
  refine ⟨fun c u => ?_, rfl, rfl, rfl, rfl⟩
  have hkeys : ∀ k : Fin 16, (construct c u).keys[k] = false := fun k => by simp [construct]
  exact ⟨rfl, zextAddr_toNat c.progStart, rfl, hkeys, rfl, construct_byte_glyph c u, rfl, rfl, rfl, rfl, rfl, rfl,
    fun a b => construct_byte_cell u b⟩

end Sys2Proof.Machine
end

section
/-! What cannot be observed (10_state R32, R34). ST and the stack are blotted out by a function of each; an operation is blind to
the blotting when, run from a state and from the blotted state, it gives the same outcome but for what is blotted out. -/

namespace Sys2Proof.Machine

/-! ## Blotting -/

/-- The state with ST replaced by a function of it, and the stack by a function of the depth and of it. -/
def blot (f : Byte → Byte) (g : Fin 17 → Vector Word 16 → Vector Word 16) (s : State) : State :=
  { s with st := f s.st, stack := g s.sp s.stack }

/-- An operation that does not see what `F` blots out. -/
def Blind (F : State → State) (m : State → Host.Outcome State Fault Refusal) : Prop :=
  ∀ s, mapNext F (m (F s)) = mapNext F (m s)

/-- What a blotting must keep: what it blots out stays blotted out, the countdown of ST and a pushed slot do not depend on it, and
the slot a RET pops is never blotted out. -/
structure Blotting (f : Byte → Byte) (g : Fin 17 → Vector Word 16 → Vector Word 16) : Prop where
  st_idem : ∀ b, f (f b) = f b
  countDown : ∀ b, f (countDown (f b)) = f (countDown b)
  stack_idem : ∀ sp k, g sp (g sp k) = g sp k
  push : ∀ (sp : Fin 17) (h : sp.val < 16) k a,
    g ⟨sp.val + 1, by omega⟩ ((g sp k).set sp.val a h) = g ⟨sp.val + 1, by omega⟩ (k.set sp.val a h)
  top : ∀ (sp : Fin 17) (_ : 0 < sp.val) k, (g sp k)[sp.val - 1] = k[sp.val - 1]
  pop : ∀ (sp : Fin 17) (_ : 0 < sp.val) k, g ⟨sp.val - 1, by omega⟩ (g sp k) = g ⟨sp.val - 1, by omega⟩ k

section
variable (f : Byte → Byte) (g : Fin 17 → Vector Word 16 → Vector Word 16)

/-! ## The operations that touch neither ST nor the stack commute with blotting -/

theorem skipIf_blot (s : State) (cond : Bool) : (blot f g s).skipIf cond = blot f g (s.skipIf cond) := by
  cases cond <;> rfl

theorem memWriteList_blot (xs : List Byte) (addr : Nat) (s : State) :
    memWriteList addr xs (blot f g s) = (memWriteList addr xs s).map (blot f g) := by
  induction xs generalizing addr s with
  | nil => rfl
  | cons x xs ih =>
    by_cases ha : addr < Config.memSize
    · rw [memWriteList, memWriteList, memWrite_ok ha, memWrite_ok ha]
      exact ih (addr + 1) { s with mem := Memory.set s.config s.mem addr x }
    · rw [memWriteList, memWriteList, memWrite_error ha, memWrite_error ha]
      rfl

theorem loadRegsFrom_blot (base : Nat) (l : List RegIdx) (s : State) :
    loadRegsFrom base l (blot f g s) = (loadRegsFrom base l s).map (blot f g) := by
  induction l generalizing s with
  | nil => rfl
  | cons i l ih =>
    by_cases ha : base + i.val < Config.memSize
    · rw [loadRegsFrom, loadRegsFrom, memRead_ok ha, memRead_ok ha]
      exact ih (s.setReg i (s.byte (base + i.val)))
    · rw [loadRegsFrom, loadRegsFrom, memRead_error ha, memRead_error ha]
      rfl

theorem memReadList_blot (n addr : Nat) (s : State) : memReadList addr n (blot f g s) = memReadList addr n s := by
  by_cases hb : n = 0 ∨ addr + n ≤ Config.memSize
  · rw [memReadList_ok n addr _ hb, memReadList_ok n addr _ hb]
    rfl
  · rw [memReadList_error n addr _ (by omega) (by omega), memReadList_error n addr _ (by omega) (by omega)]

@[simp] theorem reg_blot (s : State) (x : RegIdx) : (blot f g s).reg x = s.reg x := rfl

@[simp] theorem index_blot (s : State) : (blot f g s).index = s.index := rfl

@[simp] theorem scanKeys_blot (s : State) : (blot f g s).scanKeys = s.scanKeys := rfl

theorem execSkipKey_blot (x : RegIdx) (s : State) : execSkipKey x (blot f g s) = mapNext (blot f g) (execSkipKey x s) := by
  rw [execSkipKey, execSkipKey, reg_blot]
  cases keyIndex (s.reg x).toNat with
  | ok k => exact congrArg Host.Outcome.next (skipIf_blot f g s _)
  | error e => rfl

theorem execSkipNotKey_blot (x : RegIdx) (s : State) :
    execSkipNotKey x (blot f g s) = mapNext (blot f g) (execSkipNotKey x s) := by
  rw [execSkipNotKey, execSkipNotKey, reg_blot]
  cases keyIndex (s.reg x).toNat with
  | ok k => exact congrArg Host.Outcome.next (skipIf_blot f g s _)
  | error e => rfl

theorem execBcd_blot (x : RegIdx) (s : State) : execBcd x (blot f g s) = mapNext (blot f g) (execBcd x s) := by
  rw [execBcd, execBcd, reg_blot, index_blot, memWriteList_blot]
  cases memWriteList s.index.toNat (bcdDigits (s.reg x)) s <;> rfl

theorem execStoreRegs_blot (x : RegIdx) (s : State) :
    execStoreRegs x (blot f g s) = mapNext (blot f g) (execStoreRegs x s) := by
  have hregs : (blot f g s).reg = s.reg := rfl
  rw [execStoreRegs, execStoreRegs, hregs, index_blot, memWriteList_blot]
  cases memWriteList s.index.toNat ((regsUpTo x).map s.reg) s <;> rfl

theorem execLoadRegs_blot (x : RegIdx) (s : State) : execLoadRegs x (blot f g s) = mapNext (blot f g) (execLoadRegs x s) := by
  rw [execLoadRegs, execLoadRegs, index_blot, loadRegsFrom_blot]
  cases loadRegsFrom s.index.toNat (regsUpTo x) s <;> rfl

theorem execWaitKey_blot (x : RegIdx) (s : State) : execWaitKey x (blot f g s) = mapNext (blot f g) (execWaitKey x s) := by
  rw [execWaitKey, execWaitKey, scanKeys_blot]
  cases s.scanKeys <;> rfl

theorem execDraw_blot (x y : RegIdx) (n : BitVec 4) (s : State) :
    execDraw x y n (blot f g s) = mapNext (blot f g) (execDraw x y n s) := by
  rw [execDraw, execDraw, index_blot, memReadList_blot]
  cases memReadList s.index.toNat n.toNat s <;> rfl

theorem latchKey_blot (k : Nat) (down : Bool) (s : State) :
    latchKey k down (blot f g s) = mapNext (blot f g) (latchKey k down s) := by
  rw [latchKey, latchKey]
  cases keyIndex k <;> rfl

theorem loadProgram_blot (bytes : List Byte) (s : State) :
    loadProgram bytes (blot f g s) = mapNext (blot f g) (loadProgram bytes s) := by
  have hstart : (blot f g s).config = s.config := rfl
  have hload : (blot f g s).loadable = s.loadable := rfl
  rw [loadProgram, loadProgram, hstart, hload, memWriteList_blot]
  split
  · rfl
  · split
    · rfl
    · cases memWriteList s.config.progStart.toNat bytes s <;> rfl

end

/-! ## Every operation is blind to a blotting -/

namespace Blotting

variable {f : Byte → Byte} {g : Fin 17 → Vector Word 16 → Vector Word 16} (hb : Blotting f g)
include hb

theorem blot_blot (s : State) : blot f g (blot f g s) = blot f g s := by
  simp only [blot, hb.st_idem, hb.stack_idem]

theorem blind_of_commutes {m : State → Host.Outcome State Fault Refusal}
    (h : ∀ s, m (blot f g s) = mapNext (blot f g) (m s)) : Blind (blot f g) m := by
  intro s
  rw [h s]
  cases m s with
  | next t => exact congrArg Host.Outcome.next (hb.blot_blot t)
  | fault e => rfl
  | refused r => rfl

theorem execCall_blind (nnn : Addr12) : Blind (blot f g) (execCall nnn) := by
  intro s
  by_cases hs : s.sp.val < 16
  · rw [execCall, execCall, push_ok hs, push_ok (s := blot f g s) hs]
    simp only [blot, mapNext, State.setPc, hb.st_idem, hb.push s.sp hs]
  · rw [execCall, execCall, push_error hs, push_error (s := blot f g s) hs]
    rfl

theorem execRet_blind : Blind (blot f g) execRet := by
  intro s
  by_cases hs : 0 < s.sp.val
  · rw [execRet, execRet, popPc_ok hs, popPc_ok (s := blot f g s) hs]
    simp only [blot, mapNext, finish_ok, hb.st_idem, hb.top s.sp hs, hb.pop s.sp hs]
  · rw [execRet, execRet, popPc_error hs, popPc_error (s := blot f g s) hs]
    rfl

theorem execSetSound_blind (x : RegIdx) : Blind (blot f g) (execSetSound x) := by
  intro s
  simp only [execSetSound, mapNext, blot, State.setSound, State.reg, hb.stack_idem]

theorem tickTimers_blind : Blind (blot f g) tickTimers := by
  intro s
  simp only [tickTimers, mapNext, blot, State.setSound, State.setDelay, hb.countDown, hb.stack_idem]

theorem exec_blind (i : Instr) : Blind (blot f g) (exec i) := by
  cases i with
  | call nnn => exact hb.execCall_blind nnn
  | ret => exact hb.execRet_blind
  | setSound x => exact hb.execSetSound_blind x
  | skipEqImm x kk | skipNeImm x kk | skipEqReg x y | skipNeReg x y =>
    exact hb.blind_of_commutes fun s => congrArg Host.Outcome.next (skipIf_blot f g s _)
  | skipKey x => exact hb.blind_of_commutes (execSkipKey_blot f g x)
  | skipNotKey x => exact hb.blind_of_commutes (execSkipNotKey_blot f g x)
  | bcd x => exact hb.blind_of_commutes (execBcd_blot f g x)
  | storeRegs x => exact hb.blind_of_commutes (execStoreRegs_blot f g x)
  | loadRegs x => exact hb.blind_of_commutes (execLoadRegs_blot f g x)
  | waitKey x => exact hb.blind_of_commutes (execWaitKey_blot f g x)
  | draw x y n => exact hb.blind_of_commutes (execDraw_blot f g x y n)
  | _ => exact hb.blind_of_commutes fun s => rfl

theorem tick_blind : Blind (blot f g) tick := by
  intro s
  have hfetch : fetch (blot f g s) = fetch s := rfl
  rw [tick, tick, hfetch]
  cases fetch s with
  | error e => rfl
  | ok w =>
    simp only [runWord]
    cases decode w with
    | instr i => exact hb.exec_blind i (tickEntry s)
    | unrecognized u => rfl

theorem hostCall_blind (op : HostOp) : Blind (blot f g) (hostCall op) := by
  intro s
  cases hs : s.faulted with
  | some e => rw [hostCall_faulted hs, hostCall_faulted (s := blot f g s) hs]
  | none =>
    have hs' : (blot f g s).faulted = none := hs
    cases op with
    | tick => rw [hostCall_tick hs, hostCall_tick hs']; exact hb.tick_blind s
    | tickTimers => rw [hostCall_tickTimers hs, hostCall_tickTimers hs']; exact hb.tickTimers_blind s
    | keyPress k =>
      rw [hostCall_keyPress hs, hostCall_keyPress hs']
      exact hb.blind_of_commutes (latchKey_blot f g k true) s
    | keyRelease k =>
      rw [hostCall_keyRelease hs, hostCall_keyRelease hs']
      exact hb.blind_of_commutes (latchKey_blot f g k false) s
    | displaySnapshot =>
      rw [hostCall_displaySnapshot hs, hostCall_displaySnapshot hs']
      exact congrArg Host.Outcome.next (hb.blot_blot s)
    | loadProgram bytes =>
      rw [hostCall_loadProgram hs, hostCall_loadProgram hs']
      exact hb.blind_of_commutes (loadProgram_blot f g bytes) s

theorem step_blind : Blind (blot f g) step := fun s => hb.hostCall_blind (nextCall s) (popCall s)

end Blotting

/-- States that agree once blotted step to outcomes that agree once blotted. -/
theorem Blind.congr {F : State → State} {m : State → Host.Outcome State Fault Refusal} (h : Blind F m) {s s' : State}
    (hF : F s = F s') : mapNext F (m s) = mapNext F (m s') :=
  calc mapNext F (m s) = mapNext F (m (F s)) := (h s).symm
    _ = mapNext F (m (F s')) := by rw [hF]
    _ = mapNext F (m s') := h s'

/-! ## ST (R34) -/

theorem hideSound_eq_blot : hideSound = blot (fun _ => 0#8) (fun _ stack => stack) := rfl

/-- Blotting ST leaves the stack as it is. -/
theorem blotting_sound : Blotting (fun _ => 0#8) (fun _ stack => stack) where
  st_idem _ := rfl
  countDown _ := rfl
  stack_idem _ _ := rfl
  push _ _ _ _ := rfl
  top _ _ _ := rfl
  pop _ _ _ := rfl

/-- Settles O55: two states that differ in ST only agree once ST is blotted out, and a step is blind to that. -/
theorem soundTimerIsUnobservable : Obligations.SoundTimerIsUnobservable := by
  unfold Obligations.SoundTimerIsUnobservable
  intro s b
  have hagree : hideSound { s with st := b } = hideSound s := rfl
  rw [hideSound_eq_blot] at hagree ⊢
  exact blotting_sound.step_blind.congr hagree

/-! ## Stale slots (R32) -/

/-- The slots from the depth on blotted out. -/
def blotStale (sp : Fin 17) (stack : Vector Word 16) : Vector Word 16 :=
  Vector.ofFn fun j : Fin 16 => if j.val < sp.val then stack[j] else 0#16

theorem hideStale_eq_blot : hideStale = blot id blotStale := rfl

theorem getElem_blotStale (sp : Fin 17) (stack : Vector Word 16) {j : Nat} (hj : j < 16) :
    (blotStale sp stack)[j] = if j < sp.val then stack[j] else 0#16 := by
  simp [blotStale]

/-- The slots below the new depth decide what is left of a stack: two that agree there are blotted alike. -/
theorem blotStale_congr {sp : Fin 17} {stack stack' : Vector Word 16}
    (h : ∀ (j : Nat) (hj : j < 16), j < sp.val → stack[j] = stack'[j]) : blotStale sp stack = blotStale sp stack' := by
  apply Vector.ext
  intro j hj
  rw [getElem_blotStale, getElem_blotStale]
  split
  · next hlt => exact h j hj hlt
  · rfl

/-- Below the depth nothing is blotted out, and a push writes the slot at the depth before it is counted. -/
theorem blotting_stale : Blotting id blotStale where
  st_idem _ := rfl
  countDown _ := rfl
  stack_idem sp k := blotStale_congr fun j hj hlt => by rw [getElem_blotStale, if_pos hlt]
  push sp h k a := blotStale_congr fun j hj hlt => by
    simp only [Vector.getElem_set]
    split
    · rfl
    · next hne => rw [getElem_blotStale, if_pos (by simp only at hlt; omega)]
  top sp h k := by rw [getElem_blotStale, if_pos (by omega)]
  pop sp h k := blotStale_congr fun j hj hlt => by
    rw [getElem_blotStale, if_pos (by simp only at hlt; omega)]

/-- Settles O56: a step is blind to the blotting of the stale slots. -/
theorem staleStackSlotsAreUnobservable : Obligations.StaleStackSlotsAreUnobservable := by
  unfold Obligations.StaleStackSlotsAreUnobservable
  intro s s' hagree
  rw [hideStale_eq_blot] at hagree ⊢
  exact blotting_stale.step_blind.congr hagree

end Sys2Proof.Machine
end

section
/-! Memory (20_memory): the checked single accesses (R52, R53), what a list of writes leaves at each address, code that Fx55 wrote
(R64), the address map of a launch (R56), and who writes memory, I and the stack (R50, 10_state R30, R31). -/

namespace Sys2Proof.Machine

/-! ## Single accesses (R52, R53) -/

/-- Settles O10: the check of each access decides, and a write to canonical memory is read back there alone. -/
theorem memoryAccessesAreCheckedAndExact : Obligations.MemoryAccessesAreCheckedAndExact := by
  unfold Obligations.MemoryAccessesAreCheckedAndExact
  intro s addr x
  refine ⟨fun h => ?_, fun h => memRead_ok (Nat.lt_succ_of_le h) s, fun h hm => ?_⟩
  · have hout : ¬ addr < Config.memSize := Nat.not_lt_of_le h
    exact ⟨memRead_error hout s, memWrite_error hout x s⟩
  · refine ⟨_, memWrite_ok (Nat.lt_succ_of_le h) x s, rfl, ?_, fun a ha => ?_⟩
    · rw [State.byte_set hm, if_pos rfl]
    · rw [State.byte_set hm, if_neg ha]

/-! ## The bytes after a list of writes (R59) -/

theorem memWriteList_byte {xs : List Byte} {addr : Nat} {s t : State} (hm : s.MemWf) (h : memWriteList addr xs s = .ok t)
    (a : Nat) : t.byte a = if addr ≤ a then xs.getD (a - addr) (s.byte a) else s.byte a := by
  obtain ⟨-, rfl | hlen, -⟩ := memWriteList_inv h
  · cases h
    simp
  · obtain ⟨m, he, -, hget⟩ := memWriteList_ok xs addr s hm hlen
    rw [h] at he
    cases he
    exact hget a

theorem memWriteList_byte_add {xs : List Byte} {addr k : Nat} {b : Byte} {s t : State} (hm : s.MemWf)
    (h : memWriteList addr xs s = .ok t) (hb : xs[k]? = some b) : t.byte (addr + k) = b := by
  rw [memWriteList_byte hm h, if_pos (Nat.le_add_right addr k), Nat.add_sub_cancel_left, List.getD_eq_getElem?_getD, hb]
  rfl

theorem memWriteList_byte_of_lt {xs : List Byte} {addr a : Nat} {s t : State} (hm : s.MemWf)
    (h : memWriteList addr xs s = .ok t) (ha : a < addr) : t.byte a = s.byte a := by
  rw [memWriteList_byte hm h, if_neg (Nat.not_le_of_lt ha)]

/-! ## Self-modifying code (R64) -/

/-- Fx55 stays in the address space and leaves V[r] at I + r, for each register it stores (44_memory_transfer R181). -/
theorem execStoreRegs_next_byte {x : RegIdx} {s t : State} (hm : s.MemWf) (h : execStoreRegs x s = .next t) :
    s.index.toNat + x.val < Config.memSize ∧ ∀ r ≤ x, t.byte (s.index.toNat + r.val) = s.reg r := by
  obtain ⟨u, hu, rfl⟩ := execStoreRegs_next h
  refine ⟨?_, fun r hr => ?_⟩
  · obtain ⟨-, hnil | hlen, -⟩ := memWriteList_inv hu
    · have hpos := congrArg List.length hnil
      simp at hpos
    · rwa [List.length_map, regsUpTo_length] at hlen
  · rw [State.byte_setIndex]
    exact memWriteList_byte_add hm hu (by rw [List.getElem?_map, regsUpTo_getElem? x r hr]; rfl)

/-- Settles O11: the two bytes at the fetch address are V[0] and V[1], which Fx55 left there. -/
theorem laterFetchSeesStoredBytes : Obligations.LaterFetchSeesStoredBytes := by
  unfold Obligations.LaterFetchSeesStoredBytes
  intro s t u x hm hx h hbytes hpc
  obtain ⟨hend, hstored⟩ := execStoreRegs_next_byte hm h
  have hhi : u.byte s.index.toNat = s.reg 0 := (hbytes _).trans (hstored 0 (Fin.zero_le x))
  have hlo : u.byte (s.index.toNat + 1) = s.reg 1 := (hbytes _).trans (hstored 1 hx)
  have hin : u.pc.toNat + 1 < Config.memSize := by rw [hpc]; omega
  rw [fetch_ok hin, hpc, hhi, hlo]

/-! ## The address map of a launch (R56) -/

/-- An image that fits is written at PROG_START by a load that is still allowed (70_reset_and_hazards R261). -/
theorem loadProgram_ok {bytes : List Byte} {s : State} (hl : s.loadable = true)
    (hlen : s.config.progStart.toNat + bytes.length ≤ Config.memSize) (hm : s.MemWf) :
    ∃ u, memWriteList s.config.progStart.toNat bytes s = .ok u ∧ loadProgram bytes s = .next { u with loadable := false } := by
  obtain ⟨m, hw, -, -⟩ := memWriteList_ok bytes s.config.progStart.toNat s hm hlen
  refine ⟨_, hw, ?_⟩
  have hfits : ¬ bytes.length > Config.memSize - s.config.progStart.toNat := by omega
  rw [loadProgram, hl, if_neg (by decide), if_neg hfits, hw]

/-- Settles O57: the load writes the image above the glyph set, which it leaves as construct() put it. -/
theorem launchLaysOutTheAddressMap : Obligations.LaunchLaysOutTheAddressMap := by
  unfold Obligations.LaunchLaysOutTheAddressMap
  intro c u image hadm hlen
  have hm : (construct c u).MemWf := launchMemory_wf c u.cells
  obtain ⟨v, hv, hload⟩ := loadProgram_ok (s := construct c u) rfl hlen hm
  have hglyph : ∀ k : Fin 80, v.byte (c.fontBase.toNat + k.val) = c.glyphData[k] := fun k =>
    have hbelow : c.fontBase.toNat + k.val < c.progStart.toNat := by omega
    (memWriteList_byte_of_lt hm hv hbelow).trans (construct_byte_glyph c u k)
  have himage : ∀ k b, image[k]? = some b → v.byte (c.progStart.toNat + k) = b := fun k b hb =>
    memWriteList_byte_add hm hv hb
  exact ⟨_, (hostCall_loadProgram rfl image).trans hload, hglyph, himage⟩

/-! ## Who writes memory, I and the stack (R50, 10_state R30, R31) -/

/-- An instruction that changes memory or I is one that R50 or R30 names. -/
theorem exec_next_mem_index {i : Instr} {s t : State} (h : exec i s = .next t) :
    (t.mem = s.mem ∨ ∃ x, i = .bcd x ∨ i = .storeRegs x) ∧
      (t.index = s.index ∨ (∃ nnn, i = .setIndex nnn) ∨
        ∃ x, i = .addIndex x ∨ i = .glyphAddr x ∨ i = .storeRegs x ∨ i = .loadRegs x) := by
  cases i with
  | setIndex nnn => cases h; exact ⟨.inl rfl, .inr (.inl ⟨nnn, rfl⟩)⟩
  | addIndex x => cases h; exact ⟨.inl rfl, .inr (.inr ⟨x, .inl rfl⟩)⟩
  | glyphAddr x => cases h; exact ⟨.inl rfl, .inr (.inr ⟨x, .inr (.inl rfl)⟩)⟩
  | storeRegs x => exact ⟨.inr ⟨x, .inr rfl⟩, .inr (.inr ⟨x, .inr (.inr (.inl rfl))⟩)⟩
  | loadRegs x =>
    obtain ⟨-, ht, -⟩ := execLoadRegs_next h
    exact ⟨.inl (by rw [ht]), .inr (.inr ⟨x, .inr (.inr (.inr rfl))⟩)⟩
  | bcd x =>
    obtain ⟨ht, -, -⟩ := memWriteList_inv (execBcd_next h)
    exact ⟨.inr ⟨x, .inl rfl⟩, .inl (by rw [ht])⟩
  | call nnn => obtain ⟨_, rfl⟩ := execCall_next h; exact ⟨.inl rfl, .inl rfl⟩
  | ret => obtain ⟨_, rfl⟩ := execRet_next h; exact ⟨.inl rfl, .inl rfl⟩
  | skipEqImm x kk | skipNeImm x kk | skipEqReg x y | skipNeReg x y =>
    cases h; rw [State.skipIf_eq]; exact ⟨.inl rfl, .inl rfl⟩
  | skipKey x => obtain ⟨k, -, rfl⟩ := execSkipKey_next h; rw [State.skipIf_eq]; exact ⟨.inl rfl, .inl rfl⟩
  | skipNotKey x => obtain ⟨k, -, rfl⟩ := execSkipNotKey_next h; rw [State.skipIf_eq]; exact ⟨.inl rfl, .inl rfl⟩
  | sysCall nnn => cases h
  | waitKey x => obtain ⟨-, rfl⟩ | ⟨k, -, -, rfl⟩ := execWaitKey_next h <;> exact ⟨.inl rfl, .inl rfl⟩
  | draw x y n => obtain ⟨-, rfl⟩ := execDraw_next h; exact ⟨.inl rfl, .inl rfl⟩
  | _ => cases h; exact ⟨.inl rfl, .inl rfl⟩

/-- Only the effects of 2nnn and 00EE touch the stack or SP, and only that of 2nnn a slot. -/
theorem exec_next_stack_sp {i : Instr} {s t : State} (h : exec i s = .next t) :
    (t.stack = s.stack ∨ ∃ nnn, i = .call nnn) ∧ (t.sp = s.sp ∨ (∃ nnn, i = .call nnn) ∨ i = .ret) := by
  cases exec_effect h with
  | calls nnn => exact ⟨.inr ⟨nnn, rfl⟩, .inr (.inl ⟨nnn, rfl⟩)⟩
  | returns => exact ⟨.inl rfl, .inr (.inr rfl)⟩
  | _ => exact ⟨.inl rfl, .inl rfl⟩

/-- Settles O41: a component that did change leaves only the instructions that write it. -/
theorem memoryIndexAndStackWriters : Obligations.MemoryIndexAndStackWriters := by
  unfold Obligations.MemoryIndexAndStackWriters
  intro i s t h
  obtain ⟨hmem, hindex⟩ := exec_next_mem_index h
  obtain ⟨hstack, hsp⟩ := exec_next_stack_sp h
  exact ⟨hmem.resolve_left, hindex.resolve_left, hstack.resolve_left, hsp.resolve_left⟩

end Sys2Proof.Machine
end

section
/-! Encoding and decoding (30_encoding): decode after encode and encode after decode are the identity (R73, R75 to R77), which words
are unrecognized (R78), and the opcode map (R75). -/

namespace Sys2Proof

/-- Settles O1: the decoder evaluates on each word. -/
theorem sampleWordsDecode : Obligations.SampleWordsDecode := by
  unfold Obligations.SampleWordsDecode
  decide

/-! ## Decode after encode -/

theorem formatAddr_right_inj {c : BitVec 4} {nnn nnn' : Addr12} : formatAddr c nnn = formatAddr c nnn' ↔ nnn = nnn' := by
  refine ⟨fun h => ?_, congrArg _⟩
  rw [← fieldNNN_formatAddr c nnn, h, fieldNNN_formatAddr]

theorem wf_sysCall_iff {nnn : Addr12} : (Instr.sysCall nnn).wf = true ↔ nnn ≠ 0x0E0#12 ∧ nnn ≠ 0x0EE#12 := by
  simp [Instr.wf]

/-- The two exact words have priority over the system calls, which well-formedness keeps apart from them (R76). -/
theorem decode0_formatAddr {nnn : Addr12} (h : (Instr.sysCall nnn).wf = true) :
    decode0 (formatAddr 0x0#4 nnn) = .instr (.sysCall nnn) := by
  obtain ⟨hclear, hret⟩ := wf_sysCall_iff.mp h
  have hclear' : formatAddr 0x0#4 nnn ≠ 0x00E0#16 := mt (formatAddr_right_inj (nnn' := 0x0E0#12)).mp hclear
  have hret' : formatAddr 0x0#4 nnn ≠ 0x00EE#16 := mt (formatAddr_right_inj (nnn' := 0x0EE#12)).mp hret
  rw [decode0, if_neg hclear', if_neg hret', fieldNNN_formatAddr]

/-- Format by format (R73), the category nibble and the fixed digits select the instruction, and the other fields are its operands. -/
theorem decode_encode {i : Instr} (h : i.wf = true) : decode (encode i) = .instr i := by
  cases i with
  | ret | clear => rfl
  | sysCall nnn =>
    simp only [encode, decode, fieldC_formatAddr]
    exact decode0_formatAddr h
  | jump nnn | jumpOffset nnn | call nnn | setIndex nnn =>
    simp only [encode, decode, fieldC_formatAddr, fieldNNN_formatAddr]
  | skipEqImm x kk | skipNeImm x kk | loadImm x kk | addImm x kk | random x kk =>
    simp only [encode, decode, fieldC_formatXKK, fieldX_formatXKK, fieldKK_formatXKK]
  | skipEqReg x y | skipNeReg x y =>
    simp only [encode, decode, fieldC_formatXYD, fieldX_formatXYD, fieldY_formatXYD, fieldD_formatXYD, if_true]
  | copy x y | or x y | and x y | xor x y | add x y | sub x y | subReverse x y | shiftRight x y | shiftLeft x y =>
    simp only [encode, decode, decode8, fieldC_formatXYD, fieldX_formatXYD, fieldY_formatXYD, fieldD_formatXYD]
  | skipKey x | skipNotKey x =>
    simp only [encode, decode, decodeE, fieldC_formatXKK, fieldX_formatXKK, fieldKK_formatXKK]
  | addIndex x | glyphAddr x | getDelay x | setDelay x | setSound x | bcd x | storeRegs x | loadRegs x | waitKey x =>
    simp only [encode, decode, decodeF, fieldC_formatXKK, fieldX_formatXKK, fieldKK_formatXKK]
  | draw x y n =>
    simp only [encode, decode, fieldC_formatXYD, fieldX_formatXYD, fieldY_formatXYD, fieldD_formatXYD]

/-- The decoder on bytes decodes the word of the first two and leaves the others (20_memory R57). -/
theorem decodeBytes_eq_instr_iff {hi lo : Byte} {rest rest' : List Byte} {i : Instr} :
    decodeBytes (hi :: lo :: rest) = .instr i rest' ↔ decode (wordOfBytes hi lo) = .instr i ∧ rest = rest' := by
  rw [decodeBytes]
  cases decode (wordOfBytes hi lo) <;> simp

/-- Settles O2: the word decodes back by its format, and its two bytes make the word again. -/
theorem decodeOfEncodeIsIdentity : Obligations.DecodeOfEncodeIsIdentity := by
  unfold Obligations.DecodeOfEncodeIsIdentity
  intro i h
  refine ⟨decode_encode h, fun rest => decodeBytes_eq_instr_iff.mpr ⟨?_, rfl⟩⟩
  rw [wordOfBytes_extract, decode_encode h]

/-! ## Encode after decode -/

theorem formatAddr_of_fieldC {w : Word} {c : BitVec 4} (hc : fieldC w = c) : formatAddr c (fieldNNN w) = w := by
  rw [← hc, formatAddr_fields]

theorem formatXKK_of_fieldC {w : Word} {c : BitVec 4} (hc : fieldC w = c) : formatXKK c (fieldX w) (fieldKK w) = w := by
  rw [← hc, formatXKK_fields]

theorem formatXKK_of_fields {w : Word} {c : BitVec 4} {kk : Byte} (hc : fieldC w = c) (hkk : fieldKK w = kk) :
    formatXKK c (fieldX w) kk = w := by
  rw [← hkk, formatXKK_of_fieldC hc]

theorem formatXYD_of_fields {w : Word} {c d : BitVec 4} (hc : fieldC w = c) (hd : fieldD w = d) :
    formatXYD c (fieldX w) (fieldY w) d = w := by
  rw [← hc, ← hd, formatXYD_fields]

theorem decode0_eq_instr {w : Word} {i : Instr} (hc : fieldC w = 0x0#4) (h : decode0 w = .instr i) :
    encode i = w ∧ i.wf = true := by
  have hw : formatAddr 0x0#4 (fieldNNN w) = w := formatAddr_of_fieldC hc
  unfold decode0 at h
  split at h
  · next hclear => cases h; exact ⟨hclear.symm, rfl⟩
  · next hclear =>
    split at h
    · next hret => cases h; exact ⟨hret.symm, rfl⟩
    · next hret =>
      cases h
      refine ⟨hw, wf_sysCall_iff.mpr ⟨fun e => hclear ?_, fun e => hret ?_⟩⟩
      · rw [← hw, e]; rfl
      · rw [← hw, e]; rfl

theorem decode8_eq_instr {w : Word} {i : Instr} (hc : fieldC w = 0x8#4) (h : decode8 w = .instr i) :
    encode i = w ∧ i.wf = true := by
  unfold decode8 at h
  split at h <;> cases h <;> exact ⟨formatXYD_of_fields hc ‹_›, rfl⟩

theorem decodeE_eq_instr {w : Word} {i : Instr} (hc : fieldC w = 0xE#4) (h : decodeE w = .instr i) :
    encode i = w ∧ i.wf = true := by
  unfold decodeE at h
  split at h <;> cases h <;> exact ⟨formatXKK_of_fields hc ‹_›, rfl⟩

theorem decodeF_eq_instr {w : Word} {i : Instr} (hc : fieldC w = 0xF#4) (h : decodeF w = .instr i) :
    encode i = w ∧ i.wf = true := by
  unfold decodeF at h
  split at h <;> cases h <;> exact ⟨formatXKK_of_fields hc ‹_›, rfl⟩

theorem ite_unrecognized_eq_instr {p : Prop} [Decidable p] {i j : Instr} {w : Word}
    (h : (if p then Decoded.instr i else .unrecognized w) = .instr j) : p ∧ i = j := by
  split at h
  · next hp => exact ⟨hp, Decoded.instr.inj h⟩
  · cases h

/-- Category by category (R77), the word has the fields of the instruction it decodes to. -/
theorem decode_eq_instr {w : Word} {i : Instr} (h : decode w = .instr i) : encode i = w ∧ i.wf = true := by
  unfold decode at h
  generalize hc : fieldC w = c at h
  match c with
  | 0x0#4 => exact decode0_eq_instr hc h
  | 0x1#4 | 0x2#4 | 0xA#4 | 0xB#4 => cases h; exact ⟨formatAddr_of_fieldC hc, rfl⟩
  | 0x3#4 | 0x4#4 | 0x6#4 | 0x7#4 | 0xC#4 => cases h; exact ⟨formatXKK_of_fieldC hc, rfl⟩
  | 0x5#4 | 0x9#4 => obtain ⟨hd, rfl⟩ := ite_unrecognized_eq_instr h; exact ⟨formatXYD_of_fields hc hd, rfl⟩
  | 0x8#4 => exact decode8_eq_instr hc h
  | 0xD#4 => cases h; exact ⟨formatXYD_of_fields hc rfl, rfl⟩
  | 0xE#4 => exact decodeE_eq_instr hc h
  | 0xF#4 => exact decodeF_eq_instr hc h
  | ⟨⟨n + 16, hn⟩⟩ => omega

/-- Settles O3: the decoder's inversion lemma. -/
theorem encodeOfDecodeIsIdentity : Obligations.EncodeOfDecodeIsIdentity := by
  unfold Obligations.EncodeOfDecodeIsIdentity
  exact fun w i => decode_eq_instr

/-! ## The unrecognized words (R78) -/

theorem decode0_ne_unrecognized (w u : Word) : decode0 w ≠ .unrecognized u := by
  unfold decode0
  split
  · exact Decoded.noConfusion
  · split <;> exact Decoded.noConfusion

theorem decode8_eq_unrecognized_iff {w u : Word} :
    decode8 w = .unrecognized u ↔ w = u ∧ w.toNat % 16 ∈ [0x8, 0x9, 0xA, 0xB, 0xC, 0xD, 0xF] := by
  rw [← fieldD_toNat]
  unfold decode8
  generalize fieldD w = d
  match d with
  | 0x0#4 | 0x1#4 | 0x2#4 | 0x3#4 | 0x4#4 | 0x5#4 | 0x6#4 | 0x7#4 | 0xE#4 => simp
  | 0x8#4 | 0x9#4 | 0xA#4 | 0xB#4 | 0xC#4 | 0xD#4 | 0xF#4 => simp
  | ⟨⟨n + 16, hn⟩⟩ => omega

theorem decodeE_eq_unrecognized_iff {w u : Word} :
    decodeE w = .unrecognized u ↔ w = u ∧ w.toNat % 256 ∉ [0x9E, 0xA1] := by
  rw [← fieldKK_toNat]
  unfold decodeE
  split <;> simp_all [← BitVec.toNat_inj]

theorem decodeF_eq_unrecognized_iff {w u : Word} :
    decodeF w = .unrecognized u ↔ w = u ∧ w.toNat % 256 ∉ [0x07, 0x0A, 0x15, 0x18, 0x1E, 0x29, 0x33, 0x55, 0x65] := by
  rw [← fieldKK_toNat]
  unfold decodeF
  split <;> simp_all [← BitVec.toNat_inj]

theorem ite_eq_unrecognized_iff {w u : Word} {i : Instr} :
    (if fieldD w = 0x0#4 then Decoded.instr i else .unrecognized w) = .unrecognized u ↔ w = u ∧ w.toNat % 16 ≠ 0 := by
  rw [← fieldD_toNat]
  split <;> simp_all [← BitVec.toNat_inj]

/-- The five groups of the table of R78, by category nibble. -/
def InReservedGroup (w : Word) : Prop :=
  (w.toNat / 4096 = 5 ∧ w.toNat % 16 ≠ 0) ∨
  (w.toNat / 4096 = 8 ∧ w.toNat % 16 ∈ [0x8, 0x9, 0xA, 0xB, 0xC, 0xD, 0xF]) ∨
  (w.toNat / 4096 = 9 ∧ w.toNat % 16 ≠ 0) ∨
  (w.toNat / 4096 = 0xE ∧ w.toNat % 256 ∉ [0x9E, 0xA1]) ∨
  (w.toNat / 4096 = 0xF ∧ w.toNat % 256 ∉ [0x07, 0x0A, 0x15, 0x18, 0x1E, 0x29, 0x33, 0x55, 0x65])

/-- Only the categories of the five groups leave a word unrecognized, each by its sub-operation digits. -/
theorem decode_eq_unrecognized_iff {w u : Word} : decode w = .unrecognized u ↔ w = u ∧ InReservedGroup w := by
  unfold InReservedGroup decode
  rw [← fieldC_toNat]
  generalize fieldC w = c
  match c with
  | 0x0#4 => simp [decode0_ne_unrecognized]
  | 0x1#4 | 0x2#4 | 0x3#4 | 0x4#4 | 0x6#4 | 0x7#4 | 0xA#4 | 0xB#4 | 0xC#4 | 0xD#4 => simp
  | 0x5#4 | 0x9#4 => simp [ite_eq_unrecognized_iff]
  | 0x8#4 => simp [decode8_eq_unrecognized_iff]
  | 0xE#4 => simp [decodeE_eq_unrecognized_iff]
  | 0xF#4 => simp [decodeF_eq_unrecognized_iff]
  | ⟨⟨n + 16, hn⟩⟩ => omega

/-- Settles O4: the characterisation of "unrecognized", whose raw word is the word decoded. -/
theorem unrecognizedWordsAreTheFiveGroups : Obligations.UnrecognizedWordsAreTheFiveGroups := by
  unfold Obligations.UnrecognizedWordsAreTheFiveGroups
  refine fun w => ⟨⟨fun ⟨u, h⟩ => ?_, fun h => ⟨w, decode_eq_unrecognized_iff.mpr ⟨rfl, h⟩⟩⟩, fun u h => ?_⟩
  · exact (decode_eq_unrecognized_iff.mp h).2
  · exact (decode_eq_unrecognized_iff.mp h).1.symm

/-! ## The opcode map (R75) -/

/-- An instruction's word matches the instruction's row, by the formats of the family TableRow. -/
theorem rowMatches_encode (i : Instr) : rowMatches (opcodeRow i) (encode i) = true := by
  cases i with
  | ret | clear => rfl
  | jump nnn | jumpOffset nnn | call nnn | sysCall nnn | setIndex nnn => exact Laws.TableRow.addr_row _ nnn
  | skipEqImm x kk | skipNeImm x kk | loadImm x kk | addImm x kk | random x kk => exact Laws.TableRow.xkk_row _ x kk
  | skipEqReg x y | skipNeReg x y | copy x y | or x y | and x y | xor x y | add x y | sub x y | subReverse x y
  | shiftRight x y | shiftLeft x y => exact Laws.TableRow.xy_row _ x y _
  | draw x y n => exact Laws.TableRow.xyn_row _ x y n
  | _ x => exact Laws.TableRow.x_row _ x _

/-- Only row 0nnn has the match word 0. -/
theorem eq_sysCall_of_match_zero {i : Instr} (h : (opcodeRow i).2 = 0x0000#16) : ∃ nnn, i = .sysCall nnn := by
  cases i with
  | sysCall nnn => exact ⟨nnn, rfl⟩
  | _ => cases h

/-- A word that decodes to row 0nnn is neither of the two exact words (R76). -/
theorem ne_exact_words_of_decode {w : Word} {i : Instr} (h : decode w = .instr i) (hz : (opcodeRow i).2 = 0x0000#16) :
    w ≠ 0x00E0#16 ∧ w ≠ 0x00EE#16 := by
  obtain ⟨nnn, rfl⟩ := eq_sysCall_of_match_zero hz
  constructor <;> rintro rfl <;> cases h

theorem fieldC_of_F000 {w m : Word} (h : w &&& 0xF000#16 = m) : fieldC w = fieldC m := by
  rw [← h, Laws.TableRow.and_F000, fieldC_formatAddr]

theorem fields_of_F00F {w m : Word} (h : w &&& 0xF00F#16 = m) : fieldC w = fieldC m ∧ fieldD w = fieldD m := by
  rw [← h, Laws.TableRow.and_F00F]
  exact ⟨(fieldC_formatXYD _ _ _ _).symm, (fieldD_formatXYD _ _ _ _).symm⟩

theorem fields_of_F0FF {w m : Word} (h : w &&& 0xF0FF#16 = m) : fieldC w = fieldC m ∧ fieldKK w = fieldKK m := by
  rw [← h, Laws.TableRow.and_F0FF]
  exact ⟨(fieldC_formatXKK _ _ _).symm, (fieldKK_formatXKK _ _ _).symm⟩

theorem eq_of_FFFF {w m : Word} (h : w &&& 0xFFFF#16 = m) : w = m := BitVec.and_allOnes.symm.trans h

/-- A word that matches a row has the fixed digits of the row, which decide what the decoder answers. -/
theorem decode_of_row {w : Word} {j : Instr} (h : w &&& (opcodeRow j).1 = (opcodeRow j).2)
    (hexact : (opcodeRow j).2 = 0x0000#16 → w ≠ 0x00E0#16 ∧ w ≠ 0x00EE#16) :
    ∃ i, decode w = .instr i ∧ opcodeRow i = opcodeRow j := by
  cases j with
  | ret | clear => obtain rfl := eq_of_FFFF h; exact ⟨_, rfl, rfl⟩
  | sysCall _ =>
    dsimp only [opcodeRow] at h
    obtain ⟨hclear, hret⟩ := hexact rfl
    rw [decode, fieldC_of_F000 h]
    exact ⟨_, (if_neg hclear).trans (if_neg hret), rfl⟩
  | jump _ | jumpOffset _ | call _ | setIndex _ | skipEqImm _ _ | skipNeImm _ _ | loadImm _ _ | addImm _ _ | random _ _
  | draw _ _ _ =>
    dsimp only [opcodeRow] at h
    rw [decode, fieldC_of_F000 h]
    exact ⟨_, rfl, rfl⟩
  | skipEqReg _ _ | skipNeReg _ _ =>
    dsimp only [opcodeRow] at h
    obtain ⟨hc, hd⟩ := fields_of_F00F h
    rw [decode, hc]
    exact ⟨_, if_pos hd, rfl⟩
  | copy _ _ | or _ _ | and _ _ | xor _ _ | add _ _ | sub _ _ | subReverse _ _ | shiftRight _ _ | shiftLeft _ _ =>
    dsimp only [opcodeRow] at h
    obtain ⟨hc, hd⟩ := fields_of_F00F h
    rw [decode, decode8, hc, hd]
    exact ⟨_, rfl, rfl⟩
  | skipKey _ | skipNotKey _ =>
    dsimp only [opcodeRow] at h
    obtain ⟨hc, hkk⟩ := fields_of_F0FF h
    rw [decode, decodeE, hc, hkk]
    exact ⟨_, rfl, rfl⟩
  | addIndex _ | glyphAddr _ | getDelay _ | setDelay _ | setSound _ | bcd _ | storeRegs _ | loadRegs _ | waitKey _ =>
    dsimp only [opcodeRow] at h
    obtain ⟨hc, hkk⟩ := fields_of_F0FF h
    rw [decode, decodeF, hc, hkk]
    exact ⟨_, rfl, rfl⟩

/-- Settles O5: a decoded word is its instruction's encoding, which matches the row; a match decides the answer of the decoder. -/
theorem decodingFollowsTheOpcodeMap : Obligations.DecodingFollowsTheOpcodeMap := by
  unfold Obligations.DecodingFollowsTheOpcodeMap
  refine fun w j => ⟨fun ⟨i, hi, hrow⟩ => ?_, fun ⟨h, hexact⟩ => decode_of_row h hexact⟩
  obtain ⟨rfl, -⟩ := decode_eq_instr hi
  rw [← hrow]
  exact ⟨of_decide_eq_true (rowMatches_encode i), ne_exact_words_of_decode hi⟩

end Sys2Proof
end

section
/-! The tick cycle (30_encoding R70, R71): fetch, decode, execute, each with its error (60_exceptions R223, R225). -/

namespace Sys2Proof.Machine

/-! ## Fetch (R71) -/

/-- Settles O6: both bytes lie inside memory, or the first address outside is the larger of pc and 0x1000. -/
theorem fetchReadsBigEndianWithinBounds : Obligations.FetchReadsBigEndianWithinBounds := by
  unfold Obligations.FetchReadsBigEndianWithinBounds
  have hsize : Config.memSize = 4096 := rfl
  refine fun s => ⟨fun h => ⟨_, fetch_ok (by omega), wordOfBytes_toNat _ _⟩, fun h => ?_, fun h => ?_⟩
  · rw [fetch_error (by omega), h, hsize]; rfl
  · rw [fetch_error (by omega), max_eq_left (by omega)]

/-! ## What a tick is, by its fetch and its decoding (R70) -/

theorem tick_of_fetch_error {s : State} {e : Fault} (hf : fetch s = .error e) : tick s = .fault e := by
  rw [tick, hf]; rfl

theorem tick_of_fetch_ok {s : State} {w : Word} (hf : fetch s = .ok w) : tick s = runWord w s := by
  rw [tick, hf]

theorem runWord_unrecognized {w u : Word} (hd : decode w = .unrecognized u) (s : State) :
    runWord w s = .fault (.unrecognizedOpcode w) := by
  obtain ⟨rfl, -⟩ := decode_eq_unrecognized_iff.mp hd
  rw [runWord, hd]; rfl

theorem tick_of_instr {s : State} {w : Word} {i : Instr} (hf : fetch s = .ok w) (hd : decode w = .instr i) :
    tick s = exec i { s with pc := s.pc + 2, loadable := false } := by
  rw [tick_of_fetch_ok hf, runWord, hd, ← tickEntry_of_fetch hf]

theorem zextAddr_eq_formatAddr (nnn : Addr12) : zextAddr nnn = formatAddr 0x0#4 nnn := by
  apply BitVec.eq_of_toNat_eq
  rw [zextAddr_toNat, formatAddr_toNat]
  simp

/-- SYS raises its own word (40_control_flow R112). -/
theorem exec_sysCall (nnn : Addr12) (s : State) : exec (.sysCall nnn) s = .fault (.unsupportedSystemCall (encode (.sysCall nnn))) := by
  rw [encode, ← zextAddr_eq_formatAddr]
  rfl

/-- Settles O7: on an instance that is not faulted the call is the tick, which its fetch and its decoding determine. -/
theorem tickRunsOneCycle : Obligations.TickRunsOneCycle := by
  unfold Obligations.TickRunsOneCycle
  refine fun s => ⟨fun hs => ?_, fun hs => ?_⟩
  · obtain ⟨e, he⟩ := Option.ne_none_iff_exists'.mp hs
    exact hostCall_faulted he .tick
  · rw [hostCall_tick hs]
    refine ⟨fun e => tick_of_fetch_error, fun w u hf hd => ?_, fun w nnn hf hd => ?_, fun w i => tick_of_instr⟩
    · rw [tick_of_fetch_ok hf, runWord_unrecognized hd]
    · obtain ⟨hw, -⟩ := decode_eq_instr hd
      rw [tick_of_instr hf hd, exec_sysCall, hw]

/-- Settles O8: taking the call away changes neither pc nor a byte, so the tick fetches the word of the two bytes at pc. -/
theorem stepRunsTheDecodedInstruction : Obligations.StepRunsTheDecodedInstruction := by
  unfold Obligations.StepRunsTheDecodedInstruction
  intro s i rest hs hcall hpc hbytes
  obtain ⟨hd, -⟩ := decodeBytes_eq_instr_iff.mp hbytes
  have hin : s.pc.toNat + 1 < 4096 := by omega
  have hf : fetch (popCall s) = .ok (wordOfBytes (s.byte s.pc.toNat) (s.byte (s.pc.toNat + 1))) := fetch_ok hin
  rw [step_eq, hcall, hostCall_tick (s := popCall s) hs, tick_of_instr hf hd]
  rfl

end Sys2Proof.Machine
end

section
/-! Control flow (40_control_flow): jumps, call and return, skips, and the system call. -/

namespace Sys2Proof.Machine

/-! ## Jumps (R100, R101) -/

/-- Settles O12: an address of 12 bits fits pc at every width. -/
theorem jumpSetsPc : Obligations.JumpSetsPc := by
  unfold Obligations.JumpSetsPc
  exact fun nnn s => ⟨decode_encode (i := .jump nnn) rfl, _, rfl, pcOf_zextAddr_toNat s.config nnn, rfl⟩

/-- Settles O13: neither the 16-bit sum nor the write to pc loses a bit of nnn + V[0]. -/
theorem jumpOffsetAddsV0 : Obligations.JumpOffsetAddsV0 := by
  unfold Obligations.JumpOffsetAddsV0
  exact fun nnn s =>
    ⟨decode_encode (i := .jumpOffset nnn) rfl, _, rfl, pcOf_jumpOffset_toNat s.config nnn (s.reg 0), rfl⟩

/-! ## Call and return (R102, R103) -/

/-- CALL at depth `top`: the return address goes to the slot `top`. -/
theorem exec_call_of_depth {s : State} {top : Fin 16} (h : s.sp.val = top.val) (nnn : Addr12) :
    exec (.call nnn) s = .next { s with
      pc := pcOf s.config (zextAddr nnn), stack := s.stack.set top.val s.pc, sp := top.succ } := by
  have hroom : s.sp.val < 16 := by omega
  rw [exec, execCall, push_ok hroom]
  simp only [State.setPc, h]
  rfl

theorem exec_call_of_full {s : State} (h : s.sp.val = 16) (nnn : Addr12) :
    exec (.call nnn) s = .fault (.stackOverflow (s.pc - 2)) := by
  rw [exec, execCall, push_error (by omega)]
  rfl

/-- RET at depth `top + 1`: pc comes from the slot `top`, which becomes the depth. -/
theorem exec_ret_of_depth {s : State} {top : Fin 16} (h : s.sp.val = top.val + 1) :
    exec .ret s = .next { s with pc := pcOf s.config s.stack[top], sp := top.castSucc } := by
  rw [exec, execRet, popPc_ok (by omega), finish_ok]
  simp only [h, Nat.add_sub_cancel]
  rfl

theorem exec_ret_of_empty {s : State} (h : s.sp.val = 0) : exec .ret s = .fault (.stackUnderflow (s.pc - 2)) := by
  rw [exec, execRet, popPc_error (by omega)]
  rfl

/-- Settles O14: below depth 16 there is a slot for the return address, and the push changes no other slot. -/
theorem callPushesReturnAddress : Obligations.CallPushesReturnAddress := by
  unfold Obligations.CallPushesReturnAddress
  refine fun nnn s => ⟨decode_encode (i := .call nnn) rfl, fun top htop => ?_, fun hfull => exec_call_of_full hfull nnn⟩
  refine ⟨_, exec_call_of_depth htop nnn, ?_, fun j hj => ?_, ?_, pcOf_zextAddr_toNat s.config nnn, rfl⟩
  · exact Vector.getElem_set_self _
  · exact Vector.getElem_set_ne top.isLt j.isLt (Fin.val_ne_of_ne hj.symm)
  · rw [htop, Fin.val_succ]

/-- Settles O15: above depth 0 the top slot is the one below SP. -/
theorem returnPopsReturnAddress : Obligations.ReturnPopsReturnAddress := by
  unfold Obligations.ReturnPopsReturnAddress
  exact fun s => ⟨decode_encode (i := .ret) rfl, fun top htop => ⟨_, exec_ret_of_depth htop, rfl, rfl, rfl⟩, exec_ret_of_empty⟩

/-- A value that fits the width of pc is written to it whole (00_scope R7). -/
theorem pcOf_of_fits {c : Config} {a : Word} (h : a.toNat < 2 ^ c.pcWidth.bits) : pcOf c a = a := by
  apply BitVec.eq_of_toNat_eq
  rw [pcOf_toNat, Nat.mod_eq_of_lt h]

/-- Settles O16: RET pops the slot the CALL pushed, whose value fits pc. -/
theorem returnUndoesCall : Obligations.ReturnUndoesCall := by
  unfold Obligations.ReturnUndoesCall
  intro nnn s t u hcall hstack hsp hconfig hfits
  obtain ⟨hroom, rfl⟩ := execCall_next hcall
  have hdepth : u.sp.val = s.sp.val + 1 := congrArg Fin.val hsp
  have hslot : u.stack[s.sp.val] = s.pc := by rw [hstack]; exact Vector.getElem_set_self _
  refine ⟨_, exec_ret_of_depth (top := ⟨s.sp.val, hroom⟩) hdepth, ?_, rfl, rfl⟩
  calc pcOf u.config u.stack[s.sp.val]
    _ = pcOf s.config s.pc := by rw [hconfig, hslot]
    _ = s.pc := pcOf_of_fits hfits

/-! ## Skips (R104 to R111) -/

section
variable {s : State} {cond : Bool} {p : Prop} [Decidable p]

/-- A skip that is taken when `p` holds. -/
theorem State.skipIf_of_iff (h : cond = true ↔ p) :
    s.skipIf cond = { s with pc := if p then pcOf s.config (s.pc + 2) else s.pc } := by
  simp only [State.skipIf_eq, h]

/-- A skip that is taken when `p` fails. -/
theorem State.skipIf_of_iff_not (h : cond = true ↔ ¬ p) :
    s.skipIf cond = { s with pc := if p then s.pc else pcOf s.config (s.pc + 2) } := by
  simp only [State.skipIf_eq, h, ite_not]

end

/-- Settles O17: the condition of the first skip is the comparison, that of the second its negation. -/
theorem skipsOnImmediateCompare : Obligations.SkipsOnImmediateCompare := by
  unfold Obligations.SkipsOnImmediateCompare
  exact fun x kk s => ⟨decode_encode (i := .skipEqImm x kk) rfl, decode_encode (i := .skipNeImm x kk) rfl,
    congrArg Host.Outcome.next (State.skipIf_of_iff decide_eq_true_iff),
    congrArg Host.Outcome.next (State.skipIf_of_iff_not decide_eq_true_iff)⟩

/-- Settles O18: as for the immediate comparisons, with V[y] for kk. -/
theorem skipsOnRegisterCompare : Obligations.SkipsOnRegisterCompare := by
  unfold Obligations.SkipsOnRegisterCompare
  exact fun x y s => ⟨decode_encode (i := .skipEqReg x y) rfl, decode_encode (i := .skipNeReg x y) rfl,
    congrArg Host.Outcome.next (State.skipIf_of_iff decide_eq_true_iff),
    congrArg Host.Outcome.next (State.skipIf_of_iff_not decide_eq_true_iff)⟩

/-- With a key index in V[x] both key skips test that key. -/
theorem exec_keySkips_of_key {s : State} {x : RegIdx} {k : Fin 16} (h : (s.reg x).toNat = k.val) :
    exec (.skipKey x) s = .next (s.skipIf s.keys[k]) ∧ exec (.skipNotKey x) s = .next (s.skipIf (!s.keys[k])) := by
  have hkey : keyIndex (s.reg x).toNat = .ok k := by rw [h]; exact keyIndex_ok k.isLt
  constructor
  · rw [exec, execSkipKey, hkey]
  · rw [exec, execSkipNotKey, hkey]

/-- With no key index in V[x] both key skips raise the same error. -/
theorem exec_keySkips_of_invalid {s : State} {x : RegIdx} (h : (s.reg x).toNat > 15) :
    exec (.skipKey x) s = .fault (.invalidKeyIndex (s.reg x).toNat) ∧
      exec (.skipNotKey x) s = .fault (.invalidKeyIndex (s.reg x).toNat) := by
  have hkey : keyIndex (s.reg x).toNat = .error (.invalidKeyIndex (s.reg x).toNat) := keyIndex_error (by omega)
  constructor
  · rw [exec, execSkipKey, hkey]; rfl
  · rw [exec, execSkipNotKey, hkey]; rfl

/-- Settles O19: a V[x] of at most 15 selects the key that both skips test, a larger one is no key index. -/
theorem skipsOnKeyLatch : Obligations.SkipsOnKeyLatch := by
  unfold Obligations.SkipsOnKeyLatch
  refine fun x s => ⟨decode_encode (i := .skipKey x) rfl, decode_encode (i := .skipNotKey x) rfl, fun k hk => ?_,
    exec_keySkips_of_invalid⟩
  obtain ⟨hdown, hup⟩ := exec_keySkips_of_key hk
  rw [hdown, hup, State.skipIf_of_iff Iff.rfl, State.skipIf_of_iff_not (p := s.keys[k] = true) (by simp)]
  exact ⟨rfl, rfl⟩

/-! ## System call (R112) -/

/-- Settles O20: outside the two exact words the word is a well-formed system call, and its encoding is what it raises. -/
theorem systemCallAlwaysRaises : Obligations.SystemCallAlwaysRaises := by
  unfold Obligations.SystemCallAlwaysRaises
  exact fun nnn s hclear hret =>
    ⟨decode_encode (i := .sysCall nnn) (wf_sysCall_iff.mpr ⟨hclear, hret⟩), exec_sysCall nnn s⟩

end Sys2Proof.Machine
end

section
/-! Immediate load and arithmetic (41_immediate): a register write, and the byte sum it takes. -/

namespace Sys2Proof.Machine

theorem setsReg_setReg (s : State) (x : RegIdx) (b : Byte) : SetsReg s (s.setReg x b) x b :=
  ⟨State.reg_setReg_same s x b, fun _ hr => State.reg_setReg_ne s hr b, State.setReg_eq s x b⟩

theorem sum8_eq_ofNat (a b : Byte) : sum8 a b = BitVec.ofNat 8 ((a.toNat + b.toNat) % 256) := by
  rw [← sum8_toNat, BitVec.ofNat_toNat, BitVec.setWidth_eq]

/-- Settles O21: both answers are one register write, of kk and of the byte sum with kk. -/
theorem immediateLoadAndAdd : Obligations.ImmediateLoadAndAdd := by
  unfold Obligations.ImmediateLoadAndAdd
  intro x kk s
  have hsum : SetsReg s (s.setReg x (sum8 (s.reg x) kk)) x (BitVec.ofNat 8 (((s.reg x).toNat + kk.toNat) % 256)) := by
    rw [← sum8_eq_ofNat]
    exact setsReg_setReg s x _
  exact ⟨decode_encode (i := .loadImm x kk) rfl, decode_encode (i := .addImm x kk) rfl,
    ⟨_, rfl, setsReg_setReg s x kk⟩, ⟨_, rfl, hsum⟩⟩

end Sys2Proof.Machine
end

section
/-! Register-register operations (42_register_alu): a register write, with a flag write after it where the rule has a flag. -/

namespace Sys2Proof.Machine

/-! ## A result, then a flag (R145 to R149, 10_state R24) -/

/-- With x = F the flag overwrites the result, so the result is read back only from another register. -/
theorem setsRegThenFlag_setRegFlag {s : State} {x : RegIdx} {b f : Byte} {result flag : Nat}
    (hb : b.toNat = result) (hf : f.toNat = flag) : SetsRegThenFlag s (s.setRegFlag x b f) x result flag := by
  refine ⟨fun hx => ?_, ?_, fun r hr hVF => State.reg_setRegFlag_ne s hr hVF b f, State.setRegFlag_eq s x b f⟩
  · rw [State.reg_setRegFlag_dest s hx, hb]
  · rw [State.reg_setRegFlag_VF, hf]

/-- Settles O23: each answer is one result-then-flag write, of the byte sum with its carry or a byte difference with its
not-borrow. -/
theorem addAndSubtractSetResultThenFlag : Obligations.AddAndSubtractSetResultThenFlag := by
  unfold Obligations.AddAndSubtractSetResultThenFlag
  exact fun x y s => ⟨decode_encode (i := .add x y) rfl, decode_encode (i := .sub x y) rfl,
    decode_encode (i := .subReverse x y) rfl,
    ⟨_, rfl, setsRegThenFlag_setRegFlag (sum8_toNat _ _) (carryFlag_toNat _ _)⟩,
    ⟨_, rfl, setsRegThenFlag_setRegFlag (diff8_toNat _ _) (noBorrowFlag_toNat _ _)⟩,
    ⟨_, rfl, setsRegThenFlag_setRegFlag (diff8_toNat _ _) (noBorrowFlag_toNat _ _)⟩⟩

/-- Both shifts take the register that the configured source selects. -/
theorem exec_shifts_of_source {s : State} {src : Config.ShiftSource} (h : s.config.shiftSource = src) (x y : RegIdx) :
    (∃ t, exec (.shiftRight x y) s = .next t ∧ SetsRegThenFlag s t x
      ((s.reg (shiftOperand src x y)).toNat / 2) ((s.reg (shiftOperand src x y)).toNat % 2)) ∧
    (∃ t, exec (.shiftLeft x y) s = .next t ∧ SetsRegThenFlag s t x
      ((s.reg (shiftOperand src x y)).toNat * 2 % 256) ((s.reg (shiftOperand src x y)).toNat / 128)) := by
  subst h
  exact ⟨⟨_, rfl, setsRegThenFlag_setRegFlag (half8_toNat _) (lsbFlag_toNat _)⟩,
    ⟨_, rfl, setsRegThenFlag_setRegFlag (twice8_toNat _) (msbFlag_toNat _)⟩⟩

/-- Settles O24: the source vy selects y, the source vx selects x. -/
theorem shiftsTakeVyAndKeepTheBitShiftedOut : Obligations.ShiftsTakeVyAndKeepTheBitShiftedOut := by
  unfold Obligations.ShiftsTakeVyAndKeepTheBitShiftedOut
  exact fun x y s => ⟨decode_encode (i := .shiftRight x y) rfl, decode_encode (i := .shiftLeft x y) rfl,
    fun hvy => exec_shifts_of_source hvy x y, fun hvx => exec_shifts_of_source hvx x y⟩

/-! ## Copy and bitwise operations (R140 to R143) -/

/-- A register write read back bit by bit. -/
theorem setsReg_setReg_bits (s : State) (x : RegIdx) {b : Byte} {bit : Nat → Bool} (hbit : ∀ k, b.getLsbD k = bit k) :
    SetsReg s (s.setReg x b) x ((s.setReg x b).reg x) ∧ ∀ k, ((s.setReg x b).reg x).getLsbD k = bit k := by
  rw [State.reg_setReg_same]
  exact ⟨setsReg_setReg s x b, hbit⟩

/-- Settles O22: each answer is one register write, of V[y] or of a byte that has each bit the operation on the operands'
bits. -/
theorem copyAndBitwiseHaveNoFlag : Obligations.CopyAndBitwiseHaveNoFlag := by
  unfold Obligations.CopyAndBitwiseHaveNoFlag
  exact fun x y s => ⟨decode_encode (i := .copy x y) rfl, decode_encode (i := .or x y) rfl,
    decode_encode (i := .and x y) rfl, decode_encode (i := .xor x y) rfl,
    ⟨_, rfl, setsReg_setReg s x (s.reg y)⟩,
    ⟨_, rfl, setsReg_setReg_bits s x fun _ => BitVec.getLsbD_or⟩,
    ⟨_, rfl, setsReg_setReg_bits s x fun _ => BitVec.getLsbD_and⟩,
    ⟨_, rfl, setsReg_setReg_bits s x fun _ => BitVec.getLsbD_xor⟩⟩

end Sys2Proof.Machine
end

section
/-! Index register, random byte and timers (43_index_random_timers): the value each instruction computes, then one write. -/

namespace Sys2Proof.Machine

/-! ## Index register (R160 to R162) -/

theorem indexSum_toNat (a : Word) (b : Byte) : (a + zextByte b).toNat = (a.toNat + b.toNat) % 65536 := by
  rw [BitVec.toNat_add, zextByte_toNat]

/-- The mask 0x0F keeps the low nibble (C3). -/
theorem lowNibble_toNat (b : Byte) : (b &&& 0x0F#8).toNat = b.toNat % 16 := by
  rw [BitVec.toNat_and]
  exact Nat.and_two_pow_sub_one_eq_mod b.toNat 4

/-- FONT_BASE has 12 bits, so no glyph address wraps at 16. -/
theorem glyphAddress_toNat (c : Config) (b : Byte) : (glyphAddress c b).toNat = c.fontBase.toNat + 5 * (b.toNat % 16) := by
  have hbase := c.fontBase.isLt
  rw [glyphAddress, lowNibble_toNat, BitVec.toNat_ofNat]
  exact Nat.mod_eq_of_lt (by omega)

/-- Only I differs after an index write. -/
theorem State.setIndex_eq (s : State) (a : Word) : s.setIndex a = { s with index := (s.setIndex a).index } := rfl

/-- Settles O27: each answer is one index write, of the zero-extended operand, of the 16-bit sum or of the glyph's address. -/
theorem indexRegisterInstructions : Obligations.IndexRegisterInstructions := by
  unfold Obligations.IndexRegisterInstructions
  exact fun nnn x s => ⟨decode_encode (i := .setIndex nnn) rfl, decode_encode (i := .addIndex x) rfl,
    decode_encode (i := .glyphAddr x) rfl,
    ⟨_, rfl, zextAddr_toNat nnn, State.setIndex_eq s _⟩,
    ⟨_, rfl, indexSum_toNat s.index (s.reg x), State.setIndex_eq s _⟩,
    ⟨_, rfl, glyphAddress_toNat s.config (s.reg x), State.setIndex_eq s _⟩⟩

/-! ## Random byte (R165, R166) -/

theorem and_mask_and_not_mask (r kk : Byte) : (r &&& kk) &&& ~~~kk = 0#8 := by
  rw [BitVec.and_assoc, BitVec.and_not_self]
  exact BitVec.and_zero

/-- Settles O28: the answer is one register write, of the drawn byte under the mask, in the state after the draw, which has the
registers of the state before it. -/
theorem randomIsAMaskedDraw : Obligations.RandomIsAMaskedDraw := by
  unfold Obligations.RandomIsAMaskedDraw
  intro x kk s
  obtain ⟨hx, hother, -⟩ := setsReg_setReg (drawByte s).2 x ((drawByte s).1 &&& kk)
  refine ⟨decode_encode (i := .random x kk) rfl, setMasked x kk (drawByte s), rfl, ⟨_, hx⟩, ?_, hother, rfl⟩
  exact (congrArg (· &&& ~~~kk) hx).trans (and_mask_and_not_mask _ kk)

/-! ## Timers (R170 to R172) -/

/-- Settles O29: one register write of DT, and one timer write of V[x] for each timer. -/
theorem timerRegisterAccess : Obligations.TimerRegisterAccess := by
  unfold Obligations.TimerRegisterAccess
  exact fun x s => ⟨decode_encode (i := .getDelay x) rfl, decode_encode (i := .setDelay x) rfl,
    decode_encode (i := .setSound x) rfl, ⟨_, rfl, setsReg_setReg s x s.dt⟩, rfl, rfl⟩

end Sys2Proof.Machine
end

section
/-! BCD and bulk transfer (44_memory_transfer): whether the accesses fit the address space, the bytes or registers they give, and
where I ends. -/

namespace Sys2Proof.Machine

/-! ## A list of writes that fits (20_memory R59) -/

theorem exists_memWriteList_ok {xs : List Byte} {addr : Nat} {s : State} (hm : s.MemWf)
    (hlen : addr + xs.length ≤ Config.memSize) : ∃ u, memWriteList addr xs s = .ok u ∧ u = { s with mem := u.mem } := by
  obtain ⟨m, hu, -, -⟩ := memWriteList_ok xs addr s hm hlen
  exact ⟨_, hu, rfl⟩

theorem memWriteList_byte_outside {xs : List Byte} {addr a : Nat} {s u : State} (hm : s.MemWf)
    (h : memWriteList addr xs s = .ok u) (ha : a < addr ∨ addr + xs.length ≤ a) : u.byte a = s.byte a := by
  obtain hbelow | habove := ha
  · exact memWriteList_byte_of_lt hm h hbelow
  · have hpast : xs.length ≤ a - addr := by omega
    rw [memWriteList_byte hm h, List.getD_eq_default _ _ hpast, ite_self]

/-! ## BCD (R180) -/

/-- Each digit fits its byte, so none is truncated. -/
theorem bcdDigits_toNat (b : Byte) : (bcdDigits b).map BitVec.toNat = [b.toNat / 100, b.toNat / 10 % 10, b.toNat % 10] := by
  have := b.isLt
  simp only [bcdDigits, List.map_cons, List.map_nil, BitVec.toNat_ofNat, List.cons.injEq, and_true]
  omega

theorem memWriteList_byte_bcdDigit {b : Byte} {addr k n : Nat} {s u : State} (hm : s.MemWf)
    (h : memWriteList addr (bcdDigits b) s = .ok u) (hn : [b.toNat / 100, b.toNat / 10 % 10, b.toNat % 10][k]? = some n) :
    (u.byte (addr + k)).toNat = n := by
  rw [← bcdDigits_toNat, List.getElem?_map, Option.map_eq_some_iff] at hn
  obtain ⟨d, hd, hdn⟩ := hn
  rw [memWriteList_byte_add hm h hd, hdn]

theorem exec_bcd_of_outside {x : RegIdx} {s : State} (h : Config.memSize ≤ s.index.toNat + 2) :
    exec (.bcd x) s = .fault (.memoryOutOfBounds (max s.index.toNat Config.memSize)) := by
  rw [exec, execBcd, memWriteList_error (bcdDigits (s.reg x)) _ s (List.cons_ne_nil _ _) (Nat.lt_succ_of_le h), finish_error]

/-- Settles O30: three writes that fit leave the three digits there, and the first write that does not fit raises. -/
theorem bcdStoresThreeDigits : Obligations.BcdStoresThreeDigits := by
  unfold Obligations.BcdStoresThreeDigits
  refine fun x s => ⟨decode_encode (i := .bcd x) rfl, fun hm hfits => ?_, exec_bcd_of_outside⟩
  obtain ⟨t, hw, hframe⟩ := exists_memWriteList_ok (xs := bcdDigits (s.reg x)) hm (Nat.succ_le_succ hfits)
  have hexec : exec (.bcd x) s = .next t := finish_eq_next.mpr hw
  exact ⟨t, hexec, hframe, memWriteList_byte_bcdDigit (k := 0) hm hw rfl, memWriteList_byte_bcdDigit (k := 1) hm hw rfl,
    memWriteList_byte_bcdDigit (k := 2) hm hw rfl, fun a ha => memWriteList_byte_outside hm hw ha⟩

/-! ## I after a bulk transfer (R181, R182) -/

theorem advanceIndex_toNat (a : Word) (x : RegIdx) : (advanceIndex a x).toNat = (a.toNat + x.val + 1) % 65536 := by
  rw [advanceIndex, BitVec.toNat_add, BitVec.toNat_ofNat, Nat.add_mod_mod, Nat.add_assoc]

/-! ## Store (R181) -/

theorem storedBytes_length (s : State) (x : RegIdx) : ((regsUpTo x).map s.reg).length = x.val + 1 := by
  rw [List.length_map, regsUpTo_length]

theorem exec_storeRegs_of_ok {x : RegIdx} {s u : State}
    (h : memWriteList s.index.toNat ((regsUpTo x).map s.reg) s = .ok u) :
    exec (.storeRegs x) s = .next (u.setIndex (advanceIndex s.index x)) := by
  rw [exec, execStoreRegs, h]

theorem exec_storeRegs_of_outside {x : RegIdx} {s : State} (h : Config.memSize ≤ s.index.toNat + x.val) :
    exec (.storeRegs x) s = .fault (.memoryOutOfBounds (max s.index.toNat Config.memSize)) := by
  have hlen := storedBytes_length s x
  rw [exec, execStoreRegs, memWriteList_error _ _ s (List.ne_nil_of_length_eq_add_one hlen) (by omega)]
  rfl

/-- Settles O31: the writes of V[0..x] that fit leave each register at its address, and then only I is set. -/
theorem storeRegsWritesAndAdvancesIndex : Obligations.StoreRegsWritesAndAdvancesIndex := by
  unfold Obligations.StoreRegsWritesAndAdvancesIndex
  refine fun x s => ⟨decode_encode (i := .storeRegs x) rfl, fun hm hfits => ?_, exec_storeRegs_of_outside⟩
  have hlen := storedBytes_length s x
  have hend : s.index.toNat + ((regsUpTo x).map s.reg).length ≤ Config.memSize := by
    rw [hlen]; exact Nat.succ_le_succ hfits
  obtain ⟨u, hw, hframe⟩ := exists_memWriteList_ok hm hend
  have hexec := exec_storeRegs_of_ok hw
  obtain ⟨-, hstored⟩ := execStoreRegs_next_byte hm hexec
  refine ⟨_, hexec, ?_, advanceIndex_toNat s.index x, hstored, fun a ha => ?_⟩
  · rw [hframe]; rfl
  · rw [State.byte_setIndex]
    exact memWriteList_byte_outside hm hw (by omega)

/-! ## Load (R182) -/

/-- A load that fits changes V and I only, and of V only the registers up to x. -/
theorem exec_loadRegs_of_fits {x : RegIdx} {s : State} (h : s.index.toNat + x.val < Config.memSize) :
    ∃ t, exec (.loadRegs x) s = .next t ∧ t = { s with v := t.v, index := advanceIndex s.index x } ∧
      (∀ r ≤ x, t.reg r = s.byte (s.index.toNat + r.val)) ∧ ∀ r, x < r → t.reg r = s.reg r := by
  obtain ⟨u, hu, -, -⟩ := loadRegs_ok h s
  have hexec : exec (.loadRegs x) s = .next (u.setIndex (advanceIndex s.index x)) := by rw [exec, execLoadRegs, hu]
  obtain ⟨-, hframe, hreg⟩ := execLoadRegs_next hexec
  exact ⟨_, hexec, hframe, fun r hr => (hreg r).trans (if_pos hr), fun r hr => (hreg r).trans (if_neg (not_le.mpr hr))⟩

theorem exec_loadRegs_of_outside {x : RegIdx} {s : State} (h : Config.memSize ≤ s.index.toNat + x.val) :
    exec (.loadRegs x) s = .fault (.memoryOutOfBounds (max s.index.toNat Config.memSize)) := by
  rw [exec, execLoadRegs, loadRegs_error (Nat.not_lt_of_le h)]
  rfl

/-- Settles O32: the load fits up to I + x = 0xFFF, and past it raises. -/
theorem loadRegsReadsAndAdvancesIndex : Obligations.LoadRegsReadsAndAdvancesIndex := by
  unfold Obligations.LoadRegsReadsAndAdvancesIndex
  refine fun x s => ⟨decode_encode (i := .loadRegs x) rfl, fun hfits => ?_, exec_loadRegs_of_outside⟩
  obtain ⟨t, hexec, hframe, hloaded, hkept⟩ := exec_loadRegs_of_fits (Nat.lt_succ_of_le hfits)
  have hindex : t.index = advanceIndex s.index x := congrArg State.index hframe
  exact ⟨t, hexec, by rw [hindex]; exact hframe, by rw [hindex, advanceIndex_toNat], hloaded, hkept⟩

/-! ## A load after a store -/

/-- Settles O33: the load reads where the store wrote, and both advance the same I. -/
theorem loadRegsUndoesStoreRegs : Obligations.LoadRegsUndoesStoreRegs := by
  unfold Obligations.LoadRegsUndoesStoreRegs
  intro x s t u hm hstore hbytes hindex
  obtain ⟨hfits, hstored⟩ := execStoreRegs_next_byte hm hstore
  obtain ⟨w, -, rfl⟩ := execStoreRegs_next hstore
  obtain ⟨z, hload, hframe, hloaded, hkept⟩ := exec_loadRegs_of_fits (x := x) (s := u) (by rwa [hindex])
  rw [hindex] at hframe hloaded
  refine ⟨z, hload, by rw [hframe, State.setIndex_index], fun r hr => ?_, hkept⟩
  rw [hloaded r hr, hbytes, hstored r hr]

end Sys2Proof.Machine
end

section
/-! Key-wait (45_keywait): the scan of the keypad latch decides between one register write and the rewind of pc. -/

namespace Sys2Proof.Machine

theorem exec_waitKey_of_none {s : State} (hup : ∀ k : Fin 16, s.keys[k] = false) (x : RegIdx) :
    exec (.waitKey x) s = .next (s.setPc (s.pc - 2)) := by
  rw [exec, execWaitKey, scanKeys_none hup]

theorem exec_waitKey_of_highest {s : State} {k : Fin 16} (hdown : s.keys[k] = true)
    (habove : ∀ j : Fin 16, k < j → s.keys[j] = false) (x : RegIdx) :
    exec (.waitKey x) s = .next (s.setReg x (BitVec.ofNat 8 k.val)) := by
  rw [exec, execWaitKey, scanKeys_some hdown habove]

/-- Settles O34: the scan finds no key or the highest one down, and the answer is the rewind or one register write. -/
theorem waitKeyTakesTheHighestKeyOrRewinds : Obligations.WaitKeyTakesTheHighestKeyOrRewinds := by
  unfold Obligations.WaitKeyTakesTheHighestKeyOrRewinds
  exact fun x s => ⟨decode_encode (i := .waitKey x) rfl, fun hup => exec_waitKey_of_none hup x,
    fun k hdown habove => ⟨_, exec_waitKey_of_highest hdown habove x, setsReg_setReg s x _⟩⟩

/-- After a fetch the rewind undoes the advance exactly: the fetch address fits in every width of pc (R29). -/
theorem pcOf_rewind_of_fetch {s : State} {w : Word} (hf : fetch s = .ok w) : pcOf s.config (s.pc + 2 - 2) = s.pc := by
  have hpc : s.pc.toNat + 1 < 4096 := (fetch_inv hf).1
  have hback : s.pc + 2 - 2 = s.pc := BitVec.add_sub_cancel s.pc 2
  rw [hback, pcOf_of_lt (by omega)]

/-- Settles O35: the tick runs the key-wait at pc + 2, where the rewind restores pc and the register write leaves it. -/
theorem keyWaitTickWithoutKeyChangesNothing : Obligations.KeyWaitTickWithoutKeyChangesNothing := by
  unfold Obligations.KeyWaitTickWithoutKeyChangesNothing
  intro s x hs hf
  rw [hostCall_tick hs, tick_of_instr hf (decode_encode (i := .waitKey x) rfl)]
  refine ⟨fun hup => ?_, fun k hdown habove => ?_⟩
  · rw [exec_waitKey_of_none (s := { s with pc := s.pc + 2, loadable := false }) hup, State.setPc, pcOf_rewind_of_fetch hf]
  · obtain ⟨hx, hother, -⟩ := setsReg_setReg { s with pc := s.pc + 2, loadable := false } x (BitVec.ofNat 8 k.val)
    exact ⟨_, exec_waitKey_of_highest (s := { s with pc := s.pc + 2, loadable := false }) hdown habove x,
      rfl, hx, hother, rfl⟩

end Sys2Proof.Machine
end

section
/-! Display (46_display): the cells a sprite covers, what a draw does to them and to VF, and the order in which its bits are
drawn. -/

namespace Sys2Proof.Machine

/-! ## Clear (R200) -/

/-- Settles O36: the answer is one display write, of the clear display. -/
theorem clearUnsetsEveryCell : Obligations.ClearUnsetsEveryCell := by
  unfold Obligations.ClearUnsetsEveryCell
  exact fun s => ⟨decode_encode (i := .clear) rfl, _, rfl, pixel_clearDisplay, rfl⟩

/-! ## What a draw answers (R201) -/

/-- The sprite of Dxyn: the n bytes at I. -/
def spriteBytes (s : State) (n : BitVec 4) : List Byte := (List.range n.toNat).map fun k => s.byte (s.index.toNat + k)

theorem memReadList_eq_spriteBytes {n : BitVec 4} {s : State}
    (h : n.toNat = 0 ∨ s.index.toNat + n.toNat ≤ Config.memSize) :
    memReadList s.index.toNat n.toNat s = .ok (spriteBytes s n) := memReadList_ok _ _ s h

theorem spriteBytes_length_le (s : State) (n : BitVec 4) : (spriteBytes s n).length ≤ 32 := by
  rw [spriteBytes, List.length_map, List.length_range]
  omega

theorem getElem?_spriteBytes_eq_some_iff {s : State} {n : BitVec 4} {k : Nat} {b : Byte} :
    (spriteBytes s n)[k]? = some b ↔ k < n.toNat ∧ s.byte (s.index.toNat + k) = b := by
  by_cases hk : k < n.toNat <;> simp [spriteBytes, hk]

/-- The cells covered by the bytes at I are those of `Covers`. -/
theorem spriteCovers_iff_covers {s : State} {vx vy : Byte} {n : BitVec 4} {r : Fin 32} {c : Fin 64} :
    SpriteCovers vx vy 0 (spriteBytes s n) r c ↔ Covers s vx vy n r c := by
  constructor
  · rintro ⟨row, b, hb, col, hcol, hbit, hlands⟩
    obtain ⟨hrow, rfl⟩ := getElem?_spriteBytes_eq_some_iff.mp hb
    rw [Nat.zero_add] at hlands
    obtain ⟨hr, hc⟩ := landsAt_iff.mp hlands
    exact ⟨row, col, hrow, List.mem_range.mp hcol, hr, hc, hbit⟩
  · rintro ⟨row, col, hrow, hcol, hr, hc, hbit⟩
    have hlands : landsAt vx vy (0 + row) col r c = true := by
      rw [Nat.zero_add]
      exact landsAt_iff.mpr ⟨hr, hc⟩
    exact ⟨row, _, getElem?_spriteBytes_eq_some_iff.mpr ⟨hrow, rfl⟩, col, List.mem_range.mpr hcol, hbit, hlands⟩

theorem State.finishDraw_disp (s : State) (p : Display × Bool) : (s.finishDraw p).disp = p.1 := rfl

theorem State.reg_finishDraw_VF (s : State) (p : Display × Bool) : (s.finishDraw p).reg VF = collisionFlag p.2 :=
  State.reg_setReg_same _ VF _

theorem State.reg_finishDraw_ne {r : RegIdx} (hr : r ≠ VF) (s : State) (p : Display × Bool) :
    (s.finishDraw p).reg r = s.reg r := State.reg_setReg_ne _ hr _

theorem collisionFlag_eq_one_iff (b : Bool) : collisionFlag b = 1#8 ↔ b = true := by cases b <;> decide

theorem collisionFlag_eq_zero_iff (b : Bool) : collisionFlag b = 0#8 ↔ ¬ b = true := by cases b <;> decide

theorem exec_draw_of_fits {n : BitVec 4} {s : State} (h : n.toNat = 0 ∨ s.index.toNat + n.toNat ≤ Config.memSize)
    (x y : RegIdx) : ∃ t, exec (.draw x y n) s = .next t := by
  rw [exec, execDraw, memReadList_eq_spriteBytes h]
  exact ⟨_, rfl⟩

theorem exec_draw_of_outside {n : BitVec 4} {s : State} (hn : n.toNat ≠ 0) (h : Config.memSize < s.index.toNat + n.toNat)
    (x y : RegIdx) : exec (.draw x y n) s = .fault (.memoryOutOfBounds (max s.index.toNat Config.memSize)) := by
  rw [exec, execDraw, memReadList_error _ _ _ hn h]
  rfl

section
variable {x y : RegIdx} {n : BitVec 4} {s t : State} (h : exec (.draw x y n) s = .next t)
include h

/-- A draw puts some drawing into the state, whose cells and collision are given by the cells `Covers` names. -/
theorem exec_draw_next : ∃ p : Display × Bool, t = s.finishDraw p ∧
    (∀ r c, pixel p.1 r c = true ↔ (¬ Covers s (s.reg x) (s.reg y) n r c ∧ pixel s.disp r c = true ∨
      Covers s (s.reg x) (s.reg y) n r c ∧ pixel s.disp r c = false)) ∧
    (p.2 = true ↔ ∃ r c, Covers s (s.reg x) (s.reg y) n r c ∧ pixel s.disp r c = true) := by
  obtain ⟨-, rfl⟩ := execDraw_next h
  obtain ⟨hpixel, hflag⟩ := drawRows_spec (s.reg x) (s.reg y) (spriteBytes s n) 0 (s.disp, false) (spriteBytes_length_le s n)
  simp only [spriteCovers_iff_covers, Bool.false_eq_true, false_or] at hpixel hflag
  exact ⟨_, rfl, hpixel, hflag⟩

theorem pixel_draw_of_covers {r : Fin 32} {c : Fin 64} (hc : Covers s (s.reg x) (s.reg y) n r c) :
    pixel t.disp r c = !pixel s.disp r c := by
  obtain ⟨p, rfl, hpixel, -⟩ := exec_draw_next h
  rw [State.finishDraw_disp, Bool.eq_iff_iff, hpixel]
  simp [hc]

theorem pixel_draw_of_not_covers {r : Fin 32} {c : Fin 64} (hc : ¬ Covers s (s.reg x) (s.reg y) n r c) :
    pixel t.disp r c = pixel s.disp r c := by
  obtain ⟨p, rfl, hpixel, -⟩ := exec_draw_next h
  rw [State.finishDraw_disp, Bool.eq_iff_iff, hpixel]
  simp [hc]

theorem flag_draw_eq_one_iff :
    t.reg VF = 1#8 ↔ ∃ r c, Covers s (s.reg x) (s.reg y) n r c ∧ pixel s.disp r c = true := by
  obtain ⟨p, rfl, -, hflag⟩ := exec_draw_next h
  rw [State.reg_finishDraw_VF, collisionFlag_eq_one_iff, hflag]

theorem flag_draw_eq_zero_iff :
    t.reg VF = 0#8 ↔ ∀ r c, Covers s (s.reg x) (s.reg y) n r c → pixel s.disp r c = false := by
  obtain ⟨p, rfl, -, hflag⟩ := exec_draw_next h
  rw [State.reg_finishDraw_VF, collisionFlag_eq_zero_iff, hflag]
  simp only [not_exists, not_and, Bool.not_eq_true]

/-- Only V[F] and the display differ after a draw. -/
theorem exec_draw_frame : (∀ r, r ≠ VF → t.reg r = s.reg r) ∧ t = { s with v := t.v, disp := t.disp } := by
  obtain ⟨p, rfl, -, -⟩ := exec_draw_next h
  exact ⟨fun r hr => State.reg_finishDraw_ne hr s p, rfl⟩

end

/-- Settles O37: the sprite's bytes fit the address space, and then each covered cell is inverted and VF is the collision, or
their reading raises. -/
theorem drawXorsTheSpriteAndReportsCollision : Obligations.DrawXorsTheSpriteAndReportsCollision := by
  unfold Obligations.DrawXorsTheSpriteAndReportsCollision
  refine fun x y n s => ⟨decode_encode (i := .draw x y n) rfl, fun hfits => ?_, fun hn hout => ?_⟩
  · obtain ⟨t, ht⟩ := exec_draw_of_fits (hfits.imp_left (congrArg BitVec.toNat)) x y
    obtain ⟨hreg, hframe⟩ := exec_draw_frame ht
    exact ⟨t, ht, fun _ _ => pixel_draw_of_covers ht, fun _ _ => pixel_draw_of_not_covers ht, (flag_draw_eq_one_iff ht).mpr,
      (flag_draw_eq_zero_iff ht).mpr, hreg, hframe⟩
  · exact exec_draw_of_outside (fun h0 => hn (BitVec.eq_of_toNat_eq h0)) hout x y

/-! ## The bits of one sprite (R202) -/

theorem landsAt_of_pixel_drawBit_ne {vx vy : Byte} {row col : Nat} {p : Display × Bool} {r : Fin 32} {c : Fin 64}
    (h : pixel (drawBit vx vy row col p).1 r c ≠ pixel p.1 r c) : landsAt vx vy row col r c = true := by
  by_contra hl
  exact h (by rw [pixel_drawBit, if_neg hl])

/-- At most 15 rows modulo 32 and 8 columns modulo 64 are distinct. -/
theorem position_eq_of_landsAt {vx vy : Byte} {row row' col col' : Nat} {r : Fin 32} {c : Fin 64}
    (hrow : row < 15) (hrow' : row' < 15) (hcol : col < 8) (hcol' : col' < 8)
    (h : landsAt vx vy row col r c = true) (h' : landsAt vx vy row' col' r c = true) : row = row' ∧ col = col' := by
  obtain ⟨hr, hc⟩ := landsAt_iff.mp h
  obtain ⟨hr', hc'⟩ := landsAt_iff.mp h'
  omega

section
variable {vx vy : Byte} {row row' col col' : Nat}

/-- Two inversions of cells commute, be the cells the same or not. -/
theorem pixel_drawBit_comm (p : Display × Bool) (r : Fin 32) (c : Fin 64) :
    pixel (drawBit vx vy row col (drawBit vx vy row' col' p)).1 r c =
      pixel (drawBit vx vy row' col' (drawBit vx vy row col p)).1 r c := by
  simp only [pixel_drawBit]
  split <;> split <;> rfl

/-- When the two bits land on different cells, the second finds its cell as it was before the first. -/
theorem collision_drawBit_drawBit
    (hdisj : ∀ r c, landsAt vx vy row col r c = true → ¬ landsAt vx vy row' col' r c = true) (p : Display × Bool) :
    (drawBit vx vy row col (drawBit vx vy row' col' p)).2 = true ↔
      (p.2 = true ∨ ∃ r c, landsAt vx vy row' col' r c = true ∧ pixel p.1 r c = true) ∨
        ∃ r c, landsAt vx vy row col r c = true ∧ pixel p.1 r c = true := by
  have hkeep : ∀ r c, landsAt vx vy row col r c = true → pixel (drawBit vx vy row' col' p).1 r c = pixel p.1 r c :=
    fun r c hl => by rw [pixel_drawBit, if_neg (hdisj r c hl)]
  rw [collision_drawBit, collision_drawBit]
  exact or_congr_right (exists₂_congr fun r c => and_congr_right fun hl => by rw [hkeep r c hl])

theorem drawBit_comm (hdisj : ∀ r c, landsAt vx vy row col r c = true → ¬ landsAt vx vy row' col' r c = true)
    (p : Display × Bool) :
    drawBit vx vy row col (drawBit vx vy row' col' p) = drawBit vx vy row' col' (drawBit vx vy row col p) := by
  refine Prod.ext (display_ext (pixel_drawBit_comm p)) (Bool.eq_iff_iff.mpr ?_)
  rw [collision_drawBit_drawBit hdisj, collision_drawBit_drawBit fun r c h' h => hdisj r c h h', or_right_comm]

end

/-- Settles O38: a changed cell is where the bit lands, and distinct positions land on distinct cells. -/
theorem spriteTouchesNoCellTwice : Obligations.SpriteTouchesNoCellTwice := by
  unfold Obligations.SpriteTouchesNoCellTwice
  intro vx vy row row' col col' hrow hrow' hcol hcol'
  refine ⟨fun p p' r c h h' => ?_, fun p hne => drawBit_comm (fun r c h h' => hne ?_) p⟩
  · exact position_eq_of_landsAt hrow hrow' hcol hcol' (landsAt_of_pixel_drawBit_ne h) (landsAt_of_pixel_drawBit_ne h')
  · exact position_eq_of_landsAt hrow hrow' hcol hcol' h h'

/-! ## Drawing twice (R203) -/

/-- The cells covered depend on memory and I only. -/
theorem covers_congr {s u : State} (hbyte : ∀ a, u.byte a = s.byte a) (hindex : u.index = s.index) (vx vy : Byte)
    (n : BitVec 4) (r : Fin 32) (c : Fin 64) : Covers u vx vy n r c ↔ Covers s vx vy n r c := by
  simp only [Covers, hbyte, hindex]

/-- Settles O39: the second draw covers the cells of the first, finds each inverted, and inverts it back. -/
theorem drawingTwiceRestoresTheDisplay : Obligations.DrawingTwiceRestoresTheDisplay := by
  unfold Obligations.DrawingTwiceRestoresTheDisplay
  intro s t u x y x' y' n ht hdisp hbyte hindex hx hy
  obtain ⟨hfits, -⟩ := execDraw_next ht
  rw [← hindex] at hfits
  obtain ⟨z, hz⟩ := exec_draw_of_fits hfits x' y'
  have hcov : ∀ r c, Covers u (u.reg x') (u.reg y') n r c ↔ Covers s (s.reg x) (s.reg y) n r c := by
    rw [hx, hy]; exact covers_congr hbyte hindex _ _ n
  have hflag : z.reg VF = 1#8 ↔ ∃ r c, Covers s (s.reg x) (s.reg y) n r c ∧ pixel s.disp r c = false := by
    rw [flag_draw_eq_one_iff hz, hdisp]
    refine exists₂_congr fun r c => (and_congr_left' (hcov r c)).trans (and_congr_right fun hc => ?_)
    rw [pixel_draw_of_covers ht hc, Bool.not_eq_true']
  refine ⟨z, hz, display_ext fun r c => ?_, hflag, fun hclear ⟨r, c, hc⟩ => ⟨?_, ?_⟩⟩
  · by_cases hc : Covers s (s.reg x) (s.reg y) n r c
    · rw [pixel_draw_of_covers hz ((hcov r c).mpr hc), hdisp, pixel_draw_of_covers ht hc, Bool.not_not]
    · rw [pixel_draw_of_not_covers hz (mt (hcov r c).mp hc), hdisp, pixel_draw_of_not_covers ht hc]
  · exact (flag_draw_eq_zero_iff ht).mpr fun r c _ => hclear r c
  · exact hflag.mpr ⟨r, c, hc, hclear r c⟩

end Sys2Proof.Machine
end

section
/-! The host's calls (60_exceptions): timers (R240), the keypad latch (R242, R243), the snapshot (R244), what an error leaves
(R228), and the call a step performs (assumption log 9). -/

namespace Sys2Proof.Machine

theorem hostCall_of_faulted_ne_none {s : State} (h : s.faulted ≠ none) (op : HostOp) :
    hostCall op s = .refused .instanceFaulted := by
  obtain ⟨e, he⟩ := Option.ne_none_iff_exists'.mp h
  exact hostCall_faulted he op

/-! ## display_snapshot (R244) -/

theorem divNat_modNat_rowMajor (r : Fin 32) (col : Fin 64) (h : r.val * 64 + col.val < 32 * 64) :
    Fin.divNat ⟨r.val * 64 + col.val, h⟩ = r ∧ Fin.modNat ⟨r.val * 64 + col.val, h⟩ = col := by
  simp only [Fin.ext_iff, Fin.coe_divNat, Fin.coe_modNat]
  omega

/-- Number k of the list is the cell in row k / 64 and column k % 64. -/
theorem snapshot_eq_ofFn (d : Display) : snapshot d = List.ofFn fun k : Fin (32 * 64) => pixel d k.divNat k.modNat := by
  rw [List.ofFn_mul]
  simp only [divNat_modNat_rowMajor, snapshot, List.flatMap, List.ofFn_eq_map]

theorem snapshot_length (d : Display) : (snapshot d).length = 2048 := by
  rw [snapshot_eq_ofFn, List.length_ofFn]

theorem snapshot_getElem? (d : Display) (r : Fin 32) (col : Fin 64) :
    (snapshot d)[r.val * 64 + col.val]? = some (pixel d r col) := by
  have hin : r.val * 64 + col.val < 32 * 64 := by omega
  obtain ⟨hrow, hcol⟩ := divNat_modNat_rowMajor r col hin
  rw [snapshot_eq_ofFn, List.getElem?_ofFn, dif_pos hin, hrow, hcol]

/-- Settles O44: the reply is the snapshot of the display, and the call leaves the instance as it is. -/
theorem snapshotIsRowMajor : Obligations.SnapshotIsRowMajor := by
  unfold Obligations.SnapshotIsRowMajor
  intro s hs
  have hcall := hostCall_displaySnapshot hs
  refine ⟨hcall, snapshot s.disp, ?_, snapshot_length s.disp, snapshot_getElem? s.disp⟩
  rw [HostStep, hcall]
  exact ⟨rfl, rfl⟩

/-! ## tick_timers (R240) -/

theorem countDown_toNat (b : Byte) : (countDown b).toNat = b.toNat - 1 := by
  by_cases hb : b = 0#8
  · rw [countDown, if_pos hb, hb]; rfl
  · rw [countDown, if_neg hb]
    bv_omega

/-- Settles O42: the call writes the two timers, each counted down, and nothing else. -/
theorem timerTickDecrementsIfPositive : Obligations.TimerTickDecrementsIfPositive := by
  unfold Obligations.TimerTickDecrementsIfPositive
  exact fun s => ⟨fun hs => hostCall_of_faulted_ne_none hs .tickTimers,
    fun hs => ⟨_, hostCall_tickTimers hs, countDown_toNat s.dt, countDown_toNat s.st, rfl⟩⟩

/-! ## key_press and key_release (R242, R243) -/

theorem latchKey_of_lt (k : Fin 16) (down : Bool) (s : State) : latchKey k.val down s = .next (s.setKey k down) := by
  rw [latchKey, keyIndex_ok k.isLt]

theorem latchKey_of_gt {k : Nat} (hk : k > 15) (down : Bool) (s : State) :
    latchKey k down s = .fault (.invalidKeyIndex k) := by
  rw [latchKey, keyIndex_error (by omega)]
  rfl

/-- The latch of key k holds what was written, and every other latch is unchanged. -/
theorem setKey_latches (s : State) (k : Fin 16) (down : Bool) :
    (s.setKey k down).keys[k] = down ∧ (∀ j : Fin 16, j ≠ k → (s.setKey k down).keys[j] = s.keys[j]) ∧
      s.setKey k down = { s with keys := (s.setKey k down).keys } := by
  refine ⟨?_, fun j hj => ?_, rfl⟩
  · exact Vector.getElem_set_self k.isLt
  · exact Vector.getElem_set_ne k.isLt j.isLt fun h => hj (Fin.ext h.symm)

/-- Settles O43: both calls write the latch of a key index that is in range, and raise for one that is not. -/
theorem keyCallsSetAndClearOneLatch : Obligations.KeyCallsSetAndClearOneLatch := by
  unfold Obligations.KeyCallsSetAndClearOneLatch
  refine fun s => ⟨fun hs k => ⟨hostCall_of_faulted_ne_none hs _, hostCall_of_faulted_ne_none hs _⟩, fun hs => ?_⟩
  simp only [hostCall_keyPress hs, hostCall_keyRelease hs]
  refine ⟨fun k => ⟨?_, ?_⟩, fun k hk => ⟨latchKey_of_gt hk true s, latchKey_of_gt hk false s⟩⟩
  · exact ⟨_, latchKey_of_lt k true s, setKey_latches s k true⟩
  · exact ⟨_, latchKey_of_lt k false s, setKey_latches s k false⟩

/-! ## After an error (R228) -/

theorem hostStep_iff_of_fault {s s' : State} {op : HostOp} {e : Fault} (h : hostCall op s = .fault e) (reply : Reply) :
    HostStep s op reply s' ↔ reply = .error e ∧ s'.faulted = some e := by
  rw [HostStep, h]
  rfl

theorem not_hostStep_of_refused {s s' : State} {op : HostOp} {r : Refusal} (h : hostCall op s = .refused r) (reply : Reply) :
    ¬ HostStep s op reply s' := by
  rw [HostStep, h]
  exact id

/-- Settles O48: the reply and the faulted instance are what `HostStep` gives a raised error, and a refused call has no step. -/
theorem errorEndsTheInstance : Obligations.ErrorEndsTheInstance := by
  unfold Obligations.ErrorEndsTheInstance
  refine fun s s' op e h => ⟨hostStep_iff_of_fault h, fun hs' op' reply s'' => ?_⟩
  have hrefused := hostCall_faulted hs' op'
  exact ⟨hrefused, not_hostStep_of_refused hrefused reply⟩

/-! ## The call a step performs -/

theorem step_of_calls_nil {s : State} (h : s.calls = []) : step s = hostCall .tick s := by
  have hnext : nextCall s = .tick := by rw [nextCall, h]
  have hpop : popCall s = s := by rw [popCall, h, List.tail_nil, ← h]
  rw [step_eq, hnext, hpop]

theorem step_of_calls_cons {s : State} {op : HostOp} {rest : List HostOp} (h : s.calls = op :: rest) :
    step s = hostCall op { s with calls := rest } := by
  have hnext : nextCall s = op := by rw [nextCall, h]
  rw [step_eq, hnext, popCall, h, List.tail_cons]

/-- Settles O49: an empty list of coming calls means tick() on the state itself, a first call means that call on the rest. -/
theorem stepPerformsTheNextHostCall : Obligations.StepPerformsTheNextHostCall := by
  unfold Obligations.StepPerformsTheNextHostCall
  exact fun s => ⟨step_of_calls_nil, fun op rest => step_of_calls_cons⟩

end Sys2Proof.Machine
end

section
/-! Launch and the end of a run (70_reset_and_hazards): load_program (R261), the first fetch of a launch (R262), and the
self-jump at which a run has ended (R270). -/

namespace Sys2Proof.Machine

/-! ## load_program (R261) -/

theorem loadProgram_of_too_large {bytes : List Byte} {s : State} (hl : s.loadable = true)
    (hlen : Config.memSize < s.config.progStart.toNat + bytes.length) :
    loadProgram bytes s = .fault (.programTooLarge bytes.length) := by
  have hsize : Config.memSize = 4096 := rfl
  have hlarge : bytes.length > Config.memSize - s.config.progStart.toNat := by omega
  rw [loadProgram, hl, if_neg (by decide), if_pos hlarge]
  rfl

theorem loadProgram_of_not_loadable {s : State} (hl : s.loadable = false) (bytes : List Byte) :
    loadProgram bytes s = .refused .loadProgramMisused := by
  rw [loadProgram, hl]
  rfl

/-- Settles O46: the load is one list of writes at PROG_START, made when the image fits and no tick or load has run. -/
theorem loadProgramCopiesTheImage : Obligations.LoadProgramCopiesTheImage := by
  unfold Obligations.LoadProgramCopiesTheImage
  refine fun bytes s => ⟨fun hs => hostCall_of_faulted_ne_none hs _, fun hs hl hlen hm => ?_,
    fun hs hl hlen => (hostCall_loadProgram hs bytes).trans (loadProgram_of_too_large hl hlen),
    fun hs hl => (hostCall_loadProgram hs bytes).trans (loadProgram_of_not_loadable hl bytes)⟩
  obtain ⟨u, hw, hload⟩ := loadProgram_ok hl hlen hm
  obtain ⟨hframe, -, -⟩ := memWriteList_inv hw
  have hinside : ∀ k b, bytes[k]? = some b → u.byte (s.config.progStart.toNat + k) = b :=
    fun k b => memWriteList_byte_add hm hw
  have houtside : ∀ a, a < s.config.progStart.toNat ∨ s.config.progStart.toNat + bytes.length ≤ a → u.byte a = s.byte a :=
    fun a => memWriteList_byte_outside hm hw
  refine ⟨_, (hostCall_loadProgram hs bytes).trans hload, ?_, hinside, houtside⟩
  rw [hframe]

/-! ## The first fetch of a launch (R262) -/

/-- Settles O47: the load leaves pc at PROG_START, where the image's first two bytes then lie. -/
theorem firstTickFetchesTheImage : Obligations.FirstTickFetchesTheImage := by
  unfold Obligations.FirstTickFetchesTheImage
  intro c u b0 b1 rest hlen
  have hm : (construct c u).MemWf := launchMemory_wf c u.cells
  obtain ⟨v, hw, hload⟩ := loadProgram_ok (s := construct c u) rfl hlen hm
  have hpc : v.pc.toNat = c.progStart.toNat := by rw [memWriteList_pc hw]; exact zextAddr_toNat c.progStart
  have hhi : v.byte c.progStart.toNat = b0 := memWriteList_byte_add (k := 0) hm hw rfl
  have hlo : v.byte (c.progStart.toNat + 1) = b1 := memWriteList_byte_add (k := 1) hm hw rfl
  have hin : v.pc.toNat + 1 < Config.memSize := by
    have hsize : Config.memSize = 4096 := rfl
    rw [List.length_cons, List.length_cons] at hlen
    omega
  have hfetch : fetch v = .ok (wordOfBytes b0 b1) := by rw [fetch_ok hin, hpc, hhi, hlo]
  exact ⟨_, (hostCall_loadProgram rfl _).trans hload, hfetch, rfl⟩

/-! ## The self-jump (R270) -/

/-- At an ENDED state the word at pc is the jump to pc. -/
theorem Ended.fetch_eq {s : State} (h : Ended s) : fetch s = .ok (encode (.jump (s.pc.setWidth 12))) := by
  obtain ⟨-, hpc, hhi, hlo⟩ := h
  have hor : 0x10 ||| (s.pc.toNat >>> 8) = 0x10 + s.pc.toNat / 256 := by
    rw [Nat.shiftRight_eq_div_pow]
    exact (Nat.shiftLeft_add_eq_or_of_lt (a := 1) (i := 4) (by omega)).symm
  rw [fetch_ok (Nat.lt_succ_of_le (Nat.succ_le_succ hpc))]
  congr 1
  apply BitVec.eq_of_toNat_eq
  rw [wordOfBytes_toNat, hhi, hlo, hor, encode, formatAddr_toNat, BitVec.toNat_setWidth, BitVec.toNat_ofNat]
  omega

/-- The tick jumps from pc to pc: no component changes but the record that a tick has run (assumption log 10). -/
theorem Ended.tick_eq {s : State} (h : Ended s) : tick s = .next { s with loadable := false } := by
  have htarget : pcOf s.config (zextAddr (s.pc.setWidth 12)) = s.pc := by
    apply BitVec.eq_of_toNat_eq
    obtain ⟨-, hpc, -⟩ := h
    rw [pcOf_zextAddr_toNat, BitVec.toNat_setWidth]
    omega
  rw [tick_of_instr h.fetch_eq (decode_encode (i := .jump _) rfl), exec, execJump, State.setPc, htarget]

theorem Ended.hostCall_tick_eq {s : State} (h : Ended s) : hostCall .tick s = .next { s with loadable := false } := by
  have hs : s.faulted = none := h.left
  rw [hostCall_tick hs, h.tick_eq]

/-- Settles O51: the tick answers that state, and ENDED does not read the field the tick sets. -/
theorem tickAtSelfJumpChangesNothing : Obligations.TickAtSelfJumpChangesNothing := by
  unfold Obligations.TickAtSelfJumpChangesNothing
  exact fun s h => ⟨h.hostCall_tick_eq, h⟩

theorem core_run_succ_of_step {s t : State} (h : step s = .next t) (k : Nat) : core.run (k + 1) s = core.run k t := by
  have hstep : core.step s = .next t := h
  simp only [Host.Core.run, hstep]

/-- A step that answers the state it was made in answers it however often it is made. -/
theorem core_run_of_step_self {s : State} (h : step s = .next s) (k : Nat) : core.run k s = .next s := by
  induction k with
  | zero => rfl
  | succ k ih => exact (core_run_succ_of_step h k).trans ih

/-- Settles O50: with the tick already recorded and no other call coming, each step answers the same state. -/
theorem endedRunStaysEnded : Obligations.EndedRunStaysEnded := by
  unfold Obligations.EndedRunStaysEnded
  intro k s h hl hc
  have hstep : step s = .next s := by
    rw [step_of_calls_nil hc, h.hostCall_tick_eq, ← hl]
  exact core_run_of_step_self hstep k

end Sys2Proof.Machine
end
